-- ==== Sys2Proof/Word.lean ====
section
/-!
DEFINITION. The words the unit passes on its ports (10_state.md R13, R15) and the two kinds of sequence its
operations work on: a frame (R19) and a bit string (R22, 00_scope.md section 5.1).
-/
namespace Sys2Proof

/-- One byte of a frame (`BYTE_BITS` = 8, 00_scope.md R4). -/
abbrev Byte := BitVec 8

/-- A 32-bit control word `CW` (10_state.md R13). -/
abbrev Word32 := BitVec 32

/-- A 64-bit operand or result word: `DATA`, `SCALE`, `OFFSET`, `RAW`, `LIT`, `PHYS`, `BITS` (10_state.md R13, R15). -/
abbrev Word64 := BitVec 64

/-- A frame `f`: a finite sequence of bytes, byte 0 first (10_state.md R19). -/
abbrev Frame := List Byte

/-- A bit string `S`: a finite sequence of bits, index 0 the first (leftmost) character (00_scope.md section 5.1). -/
abbrev BitString := List Bool

end Sys2Proof
end

