-- ==== Sys2Proof/Config.lean ====
section
/-!
DEFINITION. What an implementation of the unit fixes (00_scope.md R4), the shape of the number format `NUM`
(42_value_transformer.md R101), and the free values: the sign and payload of a NaN result, which the spec leaves
open (42_value_transformer.md R105, 93_implementation_defined.md U4).
-/
namespace Sys2Proof.Config

/-- `MAX_FRAME_BYTES`, the longest frame a command word can carry: 8, the default of 00_scope.md R4 (log entry 8). -/
def maxFrameBytes : Nat := 8

/-- The longest bit string the `DATA` port carries, in bits (30_encoding.md R59, 10_state.md R22). -/
def maxStringBits : Nat := 64

/-- `MAX_BIT_LENGTH`, the largest legal `bitLength` (00_scope.md R4). -/
def maxBitLength : Nat := 64

/-- The number format `NUM`: a carrier `F`, its four total operations (42_value_transformer.md R101), and how a
value of `F` is carried on the 64-bit `SCALE`, `OFFSET` and `PHYS` fields. `toWord` takes the word with which a NaN
is carried, because the spec leaves a NaN's sign and payload open (R105). -/
structure NumFormat where
  /-- The type of `scale`, `offset` and the physical value. -/
  F : Type
  /-- The value that a 64-bit field carries. -/
  ofWord : Word64 → F
  /-- The 64-bit word that carries a value; the first argument is the word for a NaN. -/
  toWord : Word64 → F → Word64
  /-- The unsigned 64-bit integer as a number of `F`. -/
  u2f : Word64 → F
  /-- The `*` of `raw * scale`. -/
  fmul : F → F → F
  /-- The `+` of `... + offset`. -/
  fadd : F → F → F
  /-- Numeric equality with zero. -/
  fiszero : F → Bool

/-- FREE VALUE (log entry 5): the sign bit of a NaN result. Nothing constrains it (R105, U4). It is drawn from a source,
the operation and the whole state it runs on (`Machine.nanWord`), so that the draws of different operations, commands
or states are not provably equal. -/
opaque nanSign {α : Type} (source : α) : Bool

/-- FREE VALUE (log entry 5): the fraction of a NaN result, less one, drawn as `nanSign` is. Every value of the type
stands for one of the `2^52 - 1` nonzero fractions, so the drawn word is a NaN and may be any NaN (R105, U4). -/
opaque nanFraction {α : Type} (source : α) : Fin 4503599627370495

end Sys2Proof.Config
end

