-- ==== Sys2Proof/Syntax.lean ====
section
/-!
DEFINITION. The command as the host presents it (10_state.md R13) and the eight operations it can name
(30_encoding.md R52), one constructor for each row of spec/opcode_table.json.
-/
namespace Sys2Proof

/-- A command, format `C`: the control word and the three operand words, 224 bits (10_state.md R13,
30_encoding.md R50). -/
structure Command where
  cw : Word32
  data : Word64
  scale : Word64
  offset : Word64
  deriving DecidableEq, Repr

/-- The two byte orders; there is no third (10_state.md R20, 30_encoding.md R53). -/
inductive ByteOrder where
  | msb
  | lsb
  deriving DecidableEq, Repr

/-- The operations. Each constructor carries exactly the fields its operation reads (the "reads" column of
30_encoding.md R52), as the bits of the command; a field an operation ignores (R58) is no part of it. -/
inductive Instr where
  /-- `B2B.MSB` (40_bitstring_codec.md R71). -/
  | b2bMsb (len : BitVec 7) (data : Word64)
  /-- `B2B.LSB` (40_bitstring_codec.md R72). -/
  | b2bLsb (len : BitVec 7) (data : Word64)
  /-- `EXT.MSB` (41_field_extractor.md R86). -/
  | extMsb (len : BitVec 7) (data : Word64) (startBit bitLength : BitVec 8)
  /-- `EXT.LSB` (41_field_extractor.md R83). -/
  | extLsb (len : BitVec 7) (data : Word64) (startBit bitLength : BitVec 8)
  /-- `XBS.MSB` (41_field_extractor.md R94); `len` counts bits. -/
  | xbsMsb (len : BitVec 7) (data : Word64) (startBit bitLength : BitVec 8)
  /-- `XFORM` (42_value_transformer.md R100). -/
  | xform (data scale offset : Word64)
  /-- `DEC.MSB` (43_decode_field.md R110). -/
  | decMsb (len : BitVec 7) (data : Word64) (startBit bitLength : BitVec 8) (scale offset : Word64)
  /-- `DEC.LSB` (43_decode_field.md R111). -/
  | decLsb (len : BitVec 7) (data : Word64) (startBit bitLength : BitVec 8) (scale offset : Word64)
  deriving DecidableEq, Repr

end Sys2Proof
end

