-- ==== Sys2Proof/WellFormed.lean ====
section
/-!
DEFINITION. Which operations a command word can name: the legal values of `LEN` (30_encoding.md R59). `START_BIT`
and `BIT_LENGTH` may hold any 8-bit value: whether they are in range is decided when the operation runs
(10_state.md R20).
-/
namespace Sys2Proof

/-- `LEN` of a frame operation counts bytes, 0 to `MAX_FRAME_BYTES` (30_encoding.md R59). -/
def frameLenLegal (len : BitVec 7) : Bool := decide (len.toNat ≤ Config.maxFrameBytes)

/-- `LEN` of `XBS.MSB` counts bits, 0 to 64 (30_encoding.md R59). -/
def stringLenLegal (len : BitVec 7) : Bool := decide (len.toNat ≤ Config.maxStringBits)

/-- The check on an operation: its `LEN` is legal (30_encoding.md R59; `XFORM` reads none). -/
def Instr.wf : Instr → Bool
  | .b2bMsb len _ => frameLenLegal len
  | .b2bLsb len _ => frameLenLegal len
  | .extMsb len _ _ _ => frameLenLegal len
  | .extLsb len _ _ _ => frameLenLegal len
  | .xbsMsb len _ _ _ => stringLenLegal len
  | .xform _ _ _ => true
  | .decMsb len _ _ _ _ _ => frameLenLegal len
  | .decLsb len _ _ _ _ _ => frameLenLegal len

/-- The operation is one a command can name. -/
abbrev Instr.WellFormed (i : Instr) : Prop := i.wf = true

end Sys2Proof
end

