-- ==== Sys2Proof/Decode.lean ====
section
/-!
DEFINITION. Decoding a command (30_encoding.md R57, R61) and encoding an operation (R51, R52, R62). Every command
either names one of the eight operations or is rejected by name.
-/
namespace Sys2Proof

/-! ## The fields of the control word (30_encoding.md R51) -/

/-- `OP = CW[3:0]`. -/
def opOf (cw : Word32) : BitVec 4 := cw.extractLsb' 0 4

/-- `ORD = CW[4]`. -/
def ordOf (cw : Word32) : BitVec 1 := cw.extractLsb' 4 1

/-- `RSV0 = CW[7:5]`. -/
def rsv0Of (cw : Word32) : BitVec 3 := cw.extractLsb' 5 3

/-- `BIT_LENGTH = CW[15:8]`. -/
def bitLengthOf (cw : Word32) : BitVec 8 := cw.extractLsb' 8 8

/-- `START_BIT = CW[23:16]`. -/
def startBitOf (cw : Word32) : BitVec 8 := cw.extractLsb' 16 8

/-- `LEN = CW[30:24]`. -/
def lenOf (cw : Word32) : BitVec 7 := cw.extractLsb' 24 7

/-- `RSV1 = CW[31]`. -/
def rsv1Of (cw : Word32) : BitVec 1 := cw.extractLsb' 31 1

/-! ## Decoding -/

/-- Why a command names no operation, the conditions of 30_encoding.md R57. The unit reports all of them as the
one status `ILLEGAL_COMMAND` (60_exceptions.md R121, R124). The names are the model's own (log entry 15). -/
inductive Reject where
  /-- `RSV0` or `RSV1` is not zero (R57 condition 1). -/
  | reservedBits
  /-- `OP` is `0x0` or `0x6` to `0xF` (R57 condition 2). -/
  | reservedOperation
  /-- `XBS` or `XFORM` with `ORD = 1` (R57 conditions 3 and 4). -/
  | noLsbForm
  /-- `LEN` is outside the operation's legal values (R57 condition 5, R59). -/
  | lengthOutOfRange
  deriving DecidableEq, Repr

/-- An operation, if its "need" holds (30_encoding.md R61). -/
def need (legal : Bool) (i : Instr) : Except Reject Instr :=
  if legal then .ok i else .error .lengthOutOfRange

/-- The operation selected by `OP` and `ORD` (30_encoding.md R52, the case table of R61), for a command whose
reserved bits are zero. -/
def decodeOperation (c : Command) : Except Reject Instr :=
  let len := lenOf c.cw
  let start := startBitOf c.cw
  let bits := bitLengthOf c.cw
  match (opOf c.cw).toNat, (ordOf c.cw).toNat with
  | 1, 0 => need (frameLenLegal len) (.b2bMsb len c.data)
  | 1, 1 => need (frameLenLegal len) (.b2bLsb len c.data)
  | 2, 0 => need (frameLenLegal len) (.extMsb len c.data start bits)
  | 2, 1 => need (frameLenLegal len) (.extLsb len c.data start bits)
  | 3, 0 => need (stringLenLegal len) (.xbsMsb len c.data start bits)
  | 3, 1 => .error .noLsbForm
  | 4, 0 => .ok (.xform c.data c.scale c.offset)
  | 4, 1 => .error .noLsbForm
  | 5, 0 => need (frameLenLegal len) (.decMsb len c.data start bits c.scale c.offset)
  | 5, 1 => need (frameLenLegal len) (.decLsb len c.data start bits c.scale c.offset)
  | _, _ => .error .reservedOperation

/-- Decoding a command, in the order of 30_encoding.md R61; total on every command (R57). -/
def decode (c : Command) : Except Reject Instr :=
  if rsv1Of c.cw = 0 ∧ rsv0Of c.cw = 0 then decodeOperation c else .error .reservedBits

/-! ## Encoding -/

/-- A control word laid out as the picture of 30_encoding.md R51, its reserved fields 0. -/
def packCw (len : BitVec 7) (start bits : BitVec 8) (ord : BitVec 1) (op : BitVec 4) : Word32 :=
  (0#1 ++ len ++ start ++ bits ++ 0#3 ++ ord ++ op : BitVec 32)

/-- The command that names an operation (30_encoding.md R51, R52); the fields the operation ignores are 0 (R62). -/
def encode : Instr → Command
  | .b2bMsb len data => ⟨packCw len 0 0 0 1, data, 0, 0⟩
  | .b2bLsb len data => ⟨packCw len 0 0 1 1, data, 0, 0⟩
  | .extMsb len data start bits => ⟨packCw len start bits 0 2, data, 0, 0⟩
  | .extLsb len data start bits => ⟨packCw len start bits 1 2, data, 0, 0⟩
  | .xbsMsb len data start bits => ⟨packCw len start bits 0 3, data, 0, 0⟩
  | .xform data scale offset => ⟨packCw 0 0 0 0 4, data, scale, offset⟩
  | .decMsb len data start bits scale offset => ⟨packCw len start bits 0 5, data, scale, offset⟩
  | .decLsb len data start bits scale offset => ⟨packCw len start bits 1 5, data, scale, offset⟩

/-! ## Commands from numbered bits -/

/-- The command whose bits are the low `nbits` bits of `w`, every further bit 0: `CW` is bits 31 to 0 and the
operand words `DATA`, `SCALE`, `OFFSET` follow it in that order (30_encoding.md R50; log entry 14). -/
def commandOfBits (nbits w : Nat) : Command :=
  let v := w % 2 ^ nbits
  { cw := BitVec.ofNat 32 v
    data := BitVec.ofNat 64 (v / 2 ^ 32)
    scale := BitVec.ofNat 64 (v / 2 ^ 96)
    offset := BitVec.ofNat 64 (v / 2 ^ 160) }

/-- The operation the decoder reads from the command whose bits are `w`; none where it rejects the command. -/
def decodeTableWord (nbits w : Nat) : Option Instr :=
  match decode (commandOfBits nbits w) with
  | .ok i => some i
  | .error _ => none

end Sys2Proof
end

