-- ==== Sys2Proof/Machine/Operands.lean ====
section
/-!
DEFINITION. Frames and bit strings: the notation of 00_scope.md section 5.1, the frame and string read primitives
(20_memory.md R32, R33, R43) and how the `DATA` word carries an operand (30_encoding.md R54, R55, R56).
-/
namespace Sys2Proof.Machine

/-! ## Reading one bit -/

/-- `FrameBitMSB(f, p) = bit(f[p div 8], 7 - (p mod 8))` (20_memory.md R32), used for `p < 8 * N` only
(log entry 10). -/
def frameBitMsb (f : Frame) (p : Nat) : Bool := (f.getD (p / 8) 0).getLsbD (7 - p % 8)

/-- `FrameBitLSB(f, p) = bit(f[p div 8], p mod 8)` (20_memory.md R33), used for `p < 8 * N` only (log entry 10). -/
def frameBitLsb (f : Frame) (p : Nat) : Bool := (f.getD (p / 8) 0).getLsbD (p % 8)

/-- `StringBit(S, p) = S[p]` (20_memory.md R43), used for `p < |S|` only (log entry 10). -/
def stringBit (S : BitString) (p : Nat) : Bool := S.getD p false

/-! ## Bit strings as numbers (00_scope.md section 5.1) -/

/-- `val(S)`: the number the string spells in binary, first character most significant. -/
def val : BitString → Nat
  | [] => 0
  | b :: S => b.toNat * 2 ^ S.length + val S

/-- `str_L(v)`: character `j` of the `L` is `bit(v, L - 1 - j)`. -/
def str (L v : Nat) : BitString := (List.range L).map fun j => v.testBit (L - 1 - j)

/-- `bitrev_L(v)`: the `L` low bits of `v` in reverse order. -/
def bitrev (L v : Nat) : Nat := val (str L v).reverse

/-! ## Frames as numbers (00_scope.md section 5.1) -/

/-- `be(f)`: the frame read as one big-endian number. -/
def be : Frame → Nat
  | [] => 0
  | b :: f => b.toNat * 2 ^ (8 * f.length) + be f

/-- `le(f)`: the frame read as one little-endian number. -/
def le : Frame → Nat
  | [] => 0
  | b :: f => b.toNat + 2 ^ 8 * le f

/-- `brev8(f)`: every byte of the frame replaced by its bit reversal (40_bitstring_codec.md R76). -/
def brev8 (f : Frame) : Frame := f.map fun b => BitVec.ofNat 8 (bitrev 8 b.toNat)

/-! ## Operands on the `DATA` word -/

/-- The frame of a command: `N = LEN` bytes, byte `k` in `DATA[8k+7:8k]`; the other bits of `DATA` are ignored
(30_encoding.md R54). -/
def frameOf (len : BitVec 7) (data : Word64) : Frame :=
  (List.range len.toNat).map fun k => data.extractLsb' (8 * k) 8

/-- The bit string of a command: `LEN` characters, character `j` in bit `LEN - 1 - j` of `DATA`; the other bits of
`DATA` are ignored (30_encoding.md R55). -/
def stringOf (len : BitVec 7) (data : Word64) : BitString := str len.toNat data.toNat

end Sys2Proof.Machine
end

