-- ==== Sys2Proof/Machine/State.lean ====
section
/-!
DEFINITION. What the machine holds. The unit itself retains nothing from one command to the next (10_state.md R11,
R24): no register, flag, mode, memory or program counter (R12, R14, R16, R17, R18). State holds what passes
through it: the commands the host has issued and the responses the unit has delivered, whose sequence is the result
of a run (70_reset_and_hazards.md R145), and the model's own counter of NaN draws.
-/
namespace Sys2Proof.Machine

/-- `STATUS` of a response; the code 3 is never produced, so the type has three values
(60_exceptions.md R123, 93_implementation_defined.md U15). -/
inductive Status where
  /-- The operation completed. -/
  | ok
  /-- The document's `RangeError` (60_exceptions.md R120). -/
  | rangeError
  /-- The command names no operation (60_exceptions.md R121). -/
  | illegalCommand
  deriving DecidableEq, Repr

/-- The 2-bit code of a status on the response port (10_state.md R15, 60_exceptions.md R123). -/
def Status.code : Status → BitVec 2
  | .ok => 0
  | .rangeError => 1
  | .illegalCommand => 2

/-- A response (10_state.md R15). A data field that holds no value for the operation and status is absent
(R26, 93_implementation_defined.md U3). -/
structure Response where
  /-- `STATUS`, written by every operation. -/
  status : Status
  /-- `RAW`, the raw value, unsigned. -/
  raw : Option Word64 := none
  /-- `LIT_LEN`, the number of characters of `bitsLiteral`. -/
  litLen : Option (BitVec 7) := none
  /-- `LIT`, the literal, packed as in R22. -/
  lit : Option Word64 := none
  /-- `PHYS`, the physical value. -/
  phys : Option Word64 := none
  /-- `BITS_LEN`, the number of characters of the bit string. -/
  bitsLen : Option (BitVec 7) := none
  /-- `BITS`, the bit string, packed as in R22. -/
  bits : Option Word64 := none
  deriving DecidableEq, Repr

/-- The state of a run of the unit (70_reset_and_hazards.md R145; log entry 1). -/
structure State where
  /-- The commands issued and not yet answered, in the order issued (10_state.md R13, R14). -/
  pending : List Command
  /-- The responses delivered, in command order (10_state.md R15, 70_reset_and_hazards.md R145). -/
  responses : List Response
  /-- The MODEL's own field, not the spec's: how many values have been transformed, the number of the next NaN draw
  (42_value_transformer.md R105; log entry 5). -/
  nanDraws : Nat
  deriving DecidableEq, Repr

/-- What stops the machine: nothing does. Every command gets a response and no condition leaves the unit stuck
(70_reset_and_hazards.md R143); an error is the `STATUS` of a response (60_exceptions.md R127). The type has no
constructor, so no step can fault. -/
inductive Fault where
  deriving DecidableEq, Repr

/-- Why the model gives an instruction no meaning. -/
inductive Refusal where
  /-- Raised by an arm of `exec` whose instruction has no meaning yet; no arm does so now. Safe: the model stops
  where the unit goes on. -/
  | notModelled (mnemonic : String)
  deriving DecidableEq, Repr

/-- The outcome of a step or of a meaning. -/
abbrev Result := Host.Outcome State Fault Refusal

/-- The machine after reset: there is no architectural state to set, no command has been issued and no response
exists (10_state.md R25, 70_reset_and_hazards.md R140). The counter's 0 is the model's (DESIGN CHOICE, log entry 4). -/
def State.reset : State := { pending := [], responses := [], nanDraws := 0 }

end Sys2Proof.Machine
end

