-- ==== Sys2Proof/Machine/Ops.lean ====
section
/-!
DEFINITION. The operations on the state that the meanings share: issuing a command, answering it, and raising an
error. The unit has no memory and no register file to read or write (10_state.md R12, 20_memory.md R39).
-/
namespace Sys2Proof.Machine

/-- The host issues a command: it waits behind those issued before it (10_state.md R14). -/
def State.issue (c : Command) (s : State) : State := { s with pending := s.pending ++ [c] }

/-- The unit answers the oldest command that waits: the command waits no longer, and its response comes after those of
the earlier commands (10_state.md R10, R14, 70_reset_and_hazards.md R145). -/
def State.respond (r : Response) (s : State) : State :=
  { s with pending := s.pending.tail, responses := s.responses ++ [r] }

/-- One more value has been transformed: the next one draws its NaN word afresh (42_value_transformer.md R105;
log entry 5). -/
def State.drawn (s : State) : State := { s with nanDraws := s.nanDraws + 1 }

/-- The operation completes with a response. -/
def answer (r : Response) (s : State) : Result := .next (s.respond r)

/-- The operation ends in an error, `raise RangeError` or `raise IllegalCommand`: the response carries the status
and no data, and nothing else changes: nothing is saved, no mode changes, control goes nowhere
(60_exceptions.md R120, R121, R124, R127). There is nothing to return from (R129). -/
def raise (e : Status) (s : State) : Result := answer { status := e } s

/-- The response fields that carry a bit string of 0 to 64 characters: its length and its value
(10_state.md R22). -/
def stringFields (S : BitString) : BitVec 7 × Word64 := (BitVec.ofNat 7 S.length, BitVec.ofNat 64 (val S))

end Sys2Proof.Machine
end

