-- ==== Sys2Proof/Machine/Codec.lean ====
section
/-!
DEFINITION. The BitString Codec: `bytesToBits` in both byte orders and the operations `B2B.MSB` and `B2B.LSB`
(40_bitstring_codec.md R70 to R77).
-/
namespace Sys2Proof.Machine

/-- The 8 bits of a byte, most significant first (40_bitstring_codec.md R71, R72). -/
def byteBits (b : Byte) : BitString := (List.range 8).map fun m => b.getLsbD (7 - m)

/-- `bytesToBits(f, order)`: each byte's bits most significant first, the bytes in original order in MSB order
(40_bitstring_codec.md R71) and from last to first in LSB order (R72). -/
def bytesToBits (order : ByteOrder) (f : Frame) : BitString :=
  match order with
  | .msb => f.flatMap byteBits
  | .lsb => f.reverse.flatMap byteBits

/-- The response that carries a bit string in `BITS_LEN` and `BITS` (40_bitstring_codec.md R70). -/
def codecResponse (S : BitString) : Response :=
  { status := .ok, bitsLen := some (stringFields S).1, bits := some (stringFields S).2 }

/-- `B2B.MSB` (40_bitstring_codec.md R71). -/
def execB2bMsb (len : BitVec 7) (data : Word64) (s : State) : Result :=
  answer (codecResponse (bytesToBits .msb (frameOf len data))) s

/-- `B2B.LSB` (40_bitstring_codec.md R72). -/
def execB2bLsb (len : BitVec 7) (data : Word64) (s : State) : Result :=
  answer (codecResponse (bytesToBits .lsb (frameOf len data))) s

end Sys2Proof.Machine
end

