-- ==== Sys2Proof/Machine/Flags.lean ====
section
/-!
DEFINITION. The unit has no flags and no condition codes (10_state.md R16); the one outcome indication is the
`STATUS` of a response. Here stand the conditions that decide between `OK` and `RANGE_ERROR`
(60_exceptions.md R120). They depend on `startBit`, `bitLength` and the operand's length alone
(41_field_extractor.md R98), and test for a negative position before any division (00_scope.md section 5.1).
-/
namespace Sys2Proof.Machine

/-- `1 ≤ L ≤ 64`: the field has a positive length and a result type (41_field_extractor.md R81). -/
def bitLengthLegal (L : Nat) : Bool := decide (1 ≤ L ∧ L ≤ Config.maxBitLength)

/-- LSB mode: the span `s, s+1, ..., s+L-1` lies inside `total` positions (41_field_extractor.md R82). -/
def lsbSpanFits (total s L : Nat) : Bool := decide (s + L ≤ total)

/-- MSB mode: the span `s, s-1, ..., s-L+1` lies inside `total` positions. The upper end is `s ≤ total - 1` and the
lower end `s - L + 1 ≥ 0`, both written without subtraction (41_field_extractor.md R87, R94). -/
def msbSpanFits (total s L : Nat) : Bool := decide (s < total ∧ L ≤ s + 1)

end Sys2Proof.Machine
end

