-- ==== Sys2Proof/Machine/Extract.lean ====
section
/-!
DEFINITION. The Field Extractor: the two addressing algorithms, the companion on a bit string, and the operations
`EXT.LSB`, `EXT.MSB` and `XBS.MSB` (41_field_extractor.md R80 to R98). MSB mode follows the backward walk of R86, the
choice of 90_conflicts.md C1 (log entry 9).
-/
namespace Sys2Proof.Machine

/-- What an extraction returns: `rawValue` and `bitsLiteral` (41_field_extractor.md R80). -/
structure Extracted where
  raw : Nat
  literal : BitString
  deriving DecidableEq, Repr

/-- The loop of 41_field_extractor.md R83, R86, R94: `raw = raw | (source bit of step i << weight of step i)` for
`i = 0, 1, ..., L-1`. -/
def gather (L : Nat) (source : Nat → Bool) (weight : Nat → Nat) : Nat :=
  (List.range L).foldl (fun raw i => raw ||| (source i).toNat <<< weight i) 0

/-- The raw value of LSB mode: step `i` reads LSB position `s + i`, weight `2^i` (41_field_extractor.md R83). -/
def rawLsb (f : Frame) (s L : Nat) : Nat := gather L (fun i => frameBitLsb f (s + i)) (fun i => i)

/-- The raw value of MSB mode: step `i` reads MSB position `s - i`, weight `2^(L-1-i)`
(41_field_extractor.md R86). -/
def rawMsb (f : Frame) (s L : Nat) : Nat := gather L (fun i => frameBitMsb f (s - i)) (fun i => L - 1 - i)

/-- The raw value of the bit-string path: step `i` reads index `s - i`, weight `2^(L-1-i)`
(41_field_extractor.md R94). -/
def rawString (S : BitString) (s L : Nat) : Nat := gather L (fun i => stringBit S (s - i)) (fun i => L - 1 - i)

/-- The pair an extraction of `L` bits returns: the literal is `str_L(rawValue)` in both modes
(41_field_extractor.md R85). -/
def extractedOf (L raw : Nat) : Extracted := { raw := raw, literal := str L raw }

/-- `extract` in LSB mode; none is `RangeError` (41_field_extractor.md R81, R82, R83). -/
def extractLsb (f : Frame) (s L : Nat) : Option Extracted :=
  if bitLengthLegal L && lsbSpanFits (8 * f.length) s L then some (extractedOf L (rawLsb f s L)) else none

/-- `extract` in MSB mode; none is `RangeError` (41_field_extractor.md R81, R86, R87). -/
def extractMsb (f : Frame) (s L : Nat) : Option Extracted :=
  if bitLengthLegal L && msbSpanFits (8 * f.length) s L then some (extractedOf L (rawMsb f s L)) else none

/-- The companion contract on a pre-computed bit string; none is `RangeError` (41_field_extractor.md R81, R94). -/
def extractString (S : BitString) (s L : Nat) : Option Extracted :=
  if bitLengthLegal L && msbSpanFits S.length s L then some (extractedOf L (rawString S s L)) else none

/-- The response that carries an extraction in `RAW`, `LIT_LEN` and `LIT` (41_field_extractor.md R80, R85). -/
def extractedResponse (e : Extracted) : Response :=
  { status := .ok, raw := some (BitVec.ofNat 64 e.raw), litLen := some (stringFields e.literal).1,
    lit := some (stringFields e.literal).2 }

/-- Answering an extraction: its response, or `RANGE_ERROR` with no part of a result
(41_field_extractor.md R98). -/
def answerExtraction (e : Option Extracted) (s : State) : Result :=
  match e with
  | none => raise .rangeError s
  | some e => answer (extractedResponse e) s

/-- `EXT.MSB` (41_field_extractor.md R86). -/
def execExtMsb (len : BitVec 7) (data : Word64) (startBit bitLength : BitVec 8) (s : State) : Result :=
  answerExtraction (extractMsb (frameOf len data) startBit.toNat bitLength.toNat) s

/-- `EXT.LSB` (41_field_extractor.md R83). -/
def execExtLsb (len : BitVec 7) (data : Word64) (startBit bitLength : BitVec 8) (s : State) : Result :=
  answerExtraction (extractLsb (frameOf len data) startBit.toNat bitLength.toNat) s

/-- `XBS.MSB` (41_field_extractor.md R94). -/
def execXbsMsb (len : BitVec 7) (data : Word64) (startBit bitLength : BitVec 8) (s : State) : Result :=
  answerExtraction (extractString (stringOf len data) startBit.toNat bitLength.toNat) s

end Sys2Proof.Machine
end

