-- ==== Sys2Proof/Machine/Binary64.lean ====
section
/-!
DEFINITION. The default number format `NUM`: IEEE 754 binary64, each operation rounded once to nearest, ties to
even (42_value_transformer.md R101, R104, R105, R107). A finite number is held exactly, as a sign and a magnitude
counted in units of `2^-1074`, the smallest positive binary64 number: every finite binary64 number is a whole number
of these units. What R105 leaves to IEEE 754 (signed zeros, subnormals, the overflow bound) is log entry 7.
-/
namespace Sys2Proof.Machine

/-- A number of binary64. All NaNs are one value here: their sign and payload are drawn when the number is carried
on a port (42_value_transformer.md R105). -/
inductive Binary64 where
  | nan
  | inf (neg : Bool)
  /-- The finite number `(-1)^neg * mag * 2^-1074`. -/
  | fin (neg : Bool) (mag : Nat)
  deriving DecidableEq, Repr

/-- `n` units of `2^-t`, rounded to nearest with ties to even to a whole number of units that has at most 53
significant bits (42_value_transformer.md R101). `drop` low bits go: at least the `t` below one unit, and those
beyond 53 significant bits. -/
def roundMag (n t : Nat) : Nat :=
  let drop := max t (n.log2 + 1 - 53)
  let q := n / 2 ^ drop
  let r := n % 2 ^ drop
  let up := decide (2 ^ drop < 2 * r) || (decide (2 * r = 2 ^ drop) && decide (q % 2 = 1))
  (q + up.toNat) * 2 ^ (drop - t)

/-- `2^k`, under a name that keeps the large powers of the number format from being written out. -/
@[irreducible] def twoPow (k : Nat) : Nat := 2 ^ k

/-- The units in `2^1024`: a rounded magnitude that reaches them has overflowed (log entry 7). -/
@[irreducible] def overflowMag : Nat := twoPow 2098

/-- The units in the number 1. -/
@[irreducible] def unitsPerOne : Nat := twoPow 1074

/-- The number `(-1)^neg * n * 2^-(1074 + t)`, rounded; overflow gives an infinity (42_value_transformer.md R105). -/
def roundFin (neg : Bool) (n t : Nat) : Binary64 :=
  if roundMag n t < overflowMag then .fin neg (roundMag n t) else .inf neg

/-- The number a 64-bit word carries: sign in bit 63, exponent in bits 62:52, fraction in bits 51:0
(42_value_transformer.md R101). -/
def binary64OfWord (w : Word64) : Binary64 :=
  let neg := w.getLsbD 63
  let e := (w.extractLsb' 52 11).toNat
  let fr := (w.extractLsb' 0 52).toNat
  if e = 2047 then (if fr = 0 then .inf neg else .nan)
  else if e = 0 then .fin neg fr
  else .fin neg ((2 ^ 52 + fr) * 2 ^ (e - 1))

/-- A word from its three fields (42_value_transformer.md R101). -/
def binary64Word (neg : Bool) (e fr : Nat) : Word64 :=
  (BitVec.ofBool neg ++ BitVec.ofNat 11 e ++ BitVec.ofNat 52 fr : BitVec 64)

/-- The exponent field of a finite magnitude, 0 below `2^52` units (the subnormal numbers and zero). -/
def exponentField (mag : Nat) : Nat := mag.log2 - 51

/-- The word that carries a number; a NaN is carried by the word given (42_value_transformer.md R101, R105). -/
def binary64ToWord (nanWord : Word64) (v : Binary64) : Word64 :=
  match v with
  | .nan => nanWord
  | .inf neg => binary64Word neg 2047 0
  | .fin neg mag => binary64Word neg (exponentField mag) (mag / 2 ^ (exponentField mag - 1))

/-- The unsigned 64-bit integer as a number, rounded to nearest, ties to even (42_value_transformer.md R101). -/
def binary64OfUnsigned (v : Word64) : Binary64 := roundFin false (unitsPerOne * v.toNat) 0

/-- IEEE 754 multiplication (42_value_transformer.md R101, R105). -/
def binary64Mul (a b : Binary64) : Binary64 :=
  match a, b with
  | .nan, _ => .nan
  | .inf _, .nan => .nan
  | .inf sa, .inf sb => .inf (sa ^^ sb)
  | .inf sa, .fin sb m => if m = 0 then .nan else .inf (sa ^^ sb)
  | .fin _ _, .nan => .nan
  | .fin sa m, .inf sb => if m = 0 then .nan else .inf (sa ^^ sb)
  | .fin sa m, .fin sb k => roundFin (sa ^^ sb) (m * k) 1074

/-- The sum of two finite numbers of opposite signs, exact and then rounded; equal magnitudes give `+0`
(log entry 7). -/
def binary64Diff (sa : Bool) (m : Nat) (sb : Bool) (k : Nat) : Binary64 :=
  if m = k then .fin false 0
  else if k < m then roundFin sa (m - k) 0
  else roundFin sb (k - m) 0

/-- IEEE 754 addition (42_value_transformer.md R101, R105). -/
def binary64Add (a b : Binary64) : Binary64 :=
  match a, b with
  | .nan, _ => .nan
  | .inf _, .nan => .nan
  | .inf sa, .inf sb => if sa = sb then .inf sa else .nan
  | .inf sa, .fin _ _ => .inf sa
  | .fin _ _, .nan => .nan
  | .fin _ _, .inf sb => .inf sb
  | .fin sa m, .fin sb k => if sa = sb then roundFin sa (m + k) 0 else binary64Diff sa m sb k

/-- True exactly for `+0` and `-0` (42_value_transformer.md R101, R107). -/
def binary64IsZero (a : Binary64) : Bool :=
  match a with
  | .nan => false
  | .inf _ => false
  | .fin _ m => decide (m = 0)

/-- The default `NUM` (42_value_transformer.md R101). -/
def binary64 : Config.NumFormat where
  F := Binary64
  ofWord := binary64OfWord
  toWord := binary64ToWord
  u2f := binary64OfUnsigned
  fmul := binary64Mul
  fadd := binary64Add
  fiszero := binary64IsZero

end Sys2Proof.Machine
end

