-- ==== Sys2Proof/Machine/Transform.lean ====
section
/-!
DEFINITION. The Value Transformer: `transform` over any number format, and the operation `XFORM`
(42_value_transformer.md R100 to R108).
-/
namespace Sys2Proof.Machine

/-- `transform(raw, scale, offset)` over a number format: `raw` itself when scale and offset are both zero, else
`raw * scale + offset`, the product first and then the sum (42_value_transformer.md R100, R102, R104). -/
def transform (num : Config.NumFormat) (raw : Word64) (scale offset : num.F) : num.F :=
  if num.fiszero scale && num.fiszero offset then num.u2f raw
  else num.fadd (num.fmul (num.u2f raw) scale) offset

/-- The word that carries a NaN result of the operation `i` in the state `s`: its sign and its fraction, which is not
zero, are free (42_value_transformer.md R105; log entry 5). The source of the draw is all that the run knows: the
operation, the command it answers (the oldest of `s.pending`), what came before, and the draw counter. -/
def nanWord (i : Instr) (s : State) : Word64 :=
  binary64Word (Config.nanSign (i, s)) 2047 ((Config.nanFraction (i, s)).val + 1)

/-- `PHYS` for a raw value and the words of `SCALE` and `OFFSET`, in the unit's number format, the default
(42_value_transformer.md R100, R101; log entry 6). A NaN result is carried by the word `nan` (R105). -/
def physWord (nan raw scale offset : Word64) : Word64 :=
  binary64.toWord nan (transform binary64 raw (binary64.ofWord scale) (binary64.ofWord offset))

/-- Answering the operation `i` with a response completed by `PHYS` (42_value_transformer.md R100). -/
def answerTransformed (i : Instr) (r : Response) (raw scale offset : Word64) (s : State) : Result :=
  answer { r with phys := some (physWord (nanWord i s) raw scale offset) } s.drawn

/-- `XFORM` (42_value_transformer.md R100); the raw value is `DATA` (30_encoding.md R56). -/
def execXform (data scale offset : Word64) (s : State) : Result :=
  answerTransformed (.xform data scale offset) { status := .ok } data scale offset s

end Sys2Proof.Machine
end

