-- ==== Sys2Proof/Machine/DecodeField.lean ====
section
/-!
DEFINITION. Field decode: extract, then transform the raw value; the operations `DEC.MSB` and `DEC.LSB`
(43_decode_field.md R110 to R114).
-/
namespace Sys2Proof.Machine

/-- Answering the decode `i`: an extraction error stops it with `RANGE_ERROR` and no data (43_decode_field.md R113);
else the extractor's raw value, unchanged, is the transformer's (R112). -/
def answerDecode (i : Instr) (e : Option Extracted) (scale offset : Word64) (s : State) : Result :=
  match e with
  | none => raise .rangeError s
  | some e => answerTransformed i (extractedResponse e) (BitVec.ofNat 64 e.raw) scale offset s

/-- `DEC.MSB` (43_decode_field.md R110). -/
def execDecMsb (len : BitVec 7) (data : Word64) (startBit bitLength : BitVec 8) (scale offset : Word64)
    (s : State) : Result :=
  answerDecode (.decMsb len data startBit bitLength scale offset)
    (extractMsb (frameOf len data) startBit.toNat bitLength.toNat) scale offset s

/-- `DEC.LSB` (43_decode_field.md R111). -/
def execDecLsb (len : BitVec 7) (data : Word64) (startBit bitLength : BitVec 8) (scale offset : Word64)
    (s : State) : Result :=
  answerDecode (.decLsb len data startBit bitLength scale offset)
    (extractLsb (frameOf len data) startBit.toNat bitLength.toNat) scale offset s

end Sys2Proof.Machine
end

