-- ==== Sys2Proof/Machine/Dispatch.lean ====
section
/-!
DEFINITION. One arm for each operation of spec/opcode_table.json: the operation's meaning.
-/
namespace Sys2Proof.Machine

/-- What an operation does (30_encoding.md R52). -/
def exec (i : Instr) (s : State) : Host.Outcome State Fault Refusal :=
  match i with
  | .b2bMsb len data => Sys2Proof.Machine.execB2bMsb len data s
  | .b2bLsb len data => Sys2Proof.Machine.execB2bLsb len data s
  | .extMsb len data startBit bitLength => Sys2Proof.Machine.execExtMsb len data startBit bitLength s
  | .extLsb len data startBit bitLength => Sys2Proof.Machine.execExtLsb len data startBit bitLength s
  | .xbsMsb len data startBit bitLength => Sys2Proof.Machine.execXbsMsb len data startBit bitLength s
  | .xform data scale offset => Sys2Proof.Machine.execXform data scale offset s
  | .decMsb len data startBit bitLength scale offset => Sys2Proof.Machine.execDecMsb len data startBit bitLength scale offset s
  | .decLsb len data startBit bitLength scale offset => Sys2Proof.Machine.execDecLsb len data startBit bitLength scale offset s

end Sys2Proof.Machine
end

