-- ==== Sys2Proof/Machine/Step.lean ====
section
/-!
DEFINITION. One step of the machine: the unit takes the oldest command that waits, decodes it and answers it
(10_state.md R10, 30_encoding.md R61, 60_exceptions.md R126).
-/
namespace Sys2Proof.Machine

/-- One step: the oldest command is decoded, and whatever becomes of it answers it. A command that decodes runs its
operation; one that does not gets `ILLEGAL_COMMAND` and no operation
is performed (30_encoding.md R57, R61). With no command to answer the unit stays as it is (log entry 2). -/
def step (s : State) : Host.Outcome State Fault Refusal :=
  match s.pending with
  | [] => .next s
  | c :: _ =>
    match decode c with
    | .ok i => exec i s
    | .error _ => raise .illegalCommand s

/-- `s` with the command whose bits are `w` issued ahead of all others, so that the next step answers it; the
host's issue of a command (10_state.md R14; log entry 3). -/
def State.withFetchWord (s : State) (nbits w : Nat) : State :=
  { s with pending := commandOfBits nbits w :: s.pending }

end Sys2Proof.Machine
end

