-- ==== Sys2Proof/Safety.lean ====
section
/-!
DEFINITION. What counts as a safe run, and the terms in which the claims are stated: which commands are illegal and
which raise `RangeError`, which response fields hold a value, what a NaN word is, and which magnitudes binary64
represents.

A run is safe when no step faults or refuses and every response delivered is legal (`State.Legal`).
-/
namespace Sys2Proof.Machine

/-! ## Commands -/

/-- The five conditions of 30_encoding.md R57, one a line, with the legal values of `LEN` from R59. -/
def IllegalCommand (c : Command) : Prop :=
  (c.cw.extractLsb' 5 3 ≠ 0 ∨ c.cw.extractLsb' 31 1 ≠ 0) ∨
  (c.cw.extractLsb' 0 4 = 0 ∨ 6 ≤ (c.cw.extractLsb' 0 4).toNat) ∨
  (c.cw.extractLsb' 0 4 = 3 ∧ c.cw.extractLsb' 4 1 = 1) ∨
  (c.cw.extractLsb' 0 4 = 4 ∧ c.cw.extractLsb' 4 1 = 1) ∨
  ((c.cw.extractLsb' 0 4 = 1 ∨ c.cw.extractLsb' 0 4 = 2 ∨ c.cw.extractLsb' 0 4 = 5) ∧
      8 < (c.cw.extractLsb' 24 7).toNat ∨
    c.cw.extractLsb' 0 4 = 3 ∧ 64 < (c.cw.extractLsb' 24 7).toNat)

/-- An extraction of `L` bits in LSB mode from `total` positions is legal (41_field_extractor.md section 6). -/
def LsbLegal (total s L : Nat) : Prop := 1 ≤ L ∧ L ≤ 64 ∧ s + L ≤ total

/-- An extraction of `L` bits in MSB mode from `total` positions is legal (41_field_extractor.md section 6), in the
spec's own arithmetic on integers. -/
def MsbLegal (total s L : Nat) : Prop :=
  1 ≤ L ∧ L ≤ 64 ∧ (s : Int) ≤ (total : Int) - 1 ∧ (s : Int) - (L : Int) + 1 ≥ 0

/-- The causes of `RangeError`, 60_exceptions.md R120, for a command that decodes: the operations `EXT` (2),
`XBS` (3) and `DEC` (5), with `ORD = 1` the LSB order; `LEN` counts bytes, for `XBS` bits. -/
def RangeErrorCause (c : Command) : Prop :=
  let len := (c.cw.extractLsb' 24 7).toNat
  let s := (c.cw.extractLsb' 16 8).toNat
  let L := (c.cw.extractLsb' 8 8).toNat
  let frameOp := c.cw.extractLsb' 0 4 = 2 ∨ c.cw.extractLsb' 0 4 = 5
  (frameOp ∨ c.cw.extractLsb' 0 4 = 3) ∧ (L = 0 ∨ 64 < L) ∨
  frameOp ∧ c.cw.extractLsb' 4 1 = 1 ∧ 8 * len < s + L ∨
  frameOp ∧ c.cw.extractLsb' 4 1 = 0 ∧ ((s : Int) > 8 * (len : Int) - 1 ∨ (s : Int) - (L : Int) + 1 < 0) ∨
  c.cw.extractLsb' 0 4 = 3 ∧ ((s : Int) > (len : Int) - 1 ∨ (s : Int) - (L : Int) + 1 < 0)

/-- Two commands that agree on every field their operation reads: the fixed bits, and the "reads" column of
30_encoding.md R52 (`XFORM`, 4, reads no `LEN`; `B2B`, 1, and `XFORM` read no `START_BIT` or `BIT_LENGTH`; only
`XFORM` and `DEC`, 5, read `SCALE` and `OFFSET`). -/
def AgreeOnReadFields (c c' : Command) : Prop :=
  c.cw &&& 0x800000FF#32 = c'.cw &&& 0x800000FF#32 ∧
  c.data = c'.data ∧
  (c.cw.extractLsb' 0 4 ≠ 4 → c.cw.extractLsb' 24 7 = c'.cw.extractLsb' 24 7) ∧
  (c.cw.extractLsb' 0 4 ≠ 1 → c.cw.extractLsb' 0 4 ≠ 4 →
    c.cw.extractLsb' 8 8 = c'.cw.extractLsb' 8 8 ∧ c.cw.extractLsb' 16 8 = c'.cw.extractLsb' 16 8) ∧
  (c.cw.extractLsb' 0 4 = 4 ∨ c.cw.extractLsb' 0 4 = 5 → c.scale = c'.scale ∧ c.offset = c'.offset)

/-! ## Which response fields an operation writes (10_state.md R15, the "written by" column) -/

/-- The operation writes `RAW`, `LIT_LEN` and `LIT`. -/
def writesField : Instr → Bool
  | .b2bMsb _ _ => false
  | .b2bLsb _ _ => false
  | .extMsb _ _ _ _ => true
  | .extLsb _ _ _ _ => true
  | .xbsMsb _ _ _ _ => true
  | .xform _ _ _ => false
  | .decMsb _ _ _ _ _ _ => true
  | .decLsb _ _ _ _ _ _ => true

/-- The operation writes `PHYS`. -/
def writesPhys : Instr → Bool
  | .b2bMsb _ _ => false
  | .b2bLsb _ _ => false
  | .extMsb _ _ _ _ => false
  | .extLsb _ _ _ _ => false
  | .xbsMsb _ _ _ _ => false
  | .xform _ _ _ => true
  | .decMsb _ _ _ _ _ _ => true
  | .decLsb _ _ _ _ _ _ => true

/-- The operation writes `BITS_LEN` and `BITS`. -/
def writesBits : Instr → Bool
  | .b2bMsb _ _ => true
  | .b2bLsb _ _ => true
  | .extMsb _ _ _ _ => false
  | .extLsb _ _ _ _ => false
  | .xbsMsb _ _ _ _ => false
  | .xform _ _ _ => false
  | .decMsb _ _ _ _ _ _ => false
  | .decLsb _ _ _ _ _ _ => false

/-! ## Legal responses -/

/-- A pair of response fields carries a bit string: a length of at most 64 and a value below `2` to that length
(10_state.md R22: bits `L` to 63 are zero on output). -/
def CarriesString (len : Option (BitVec 7)) (v : Option Word64) : Prop :=
  ∃ n w, len = some n ∧ v = some w ∧ n.toNat ≤ 64 ∧ w.toNat < 2 ^ n.toNat

/-- The fields of an `OK` response of the codec (10_state.md R15, R26). -/
def Response.IsCodec (r : Response) : Prop :=
  CarriesString r.bitsLen r.bits ∧ r.raw = none ∧ r.litLen = none ∧ r.lit = none ∧ r.phys = none

/-- The fields of an `OK` response of an extraction or a decode: the literal is the raw value
(10_state.md R15, R26, 41_field_extractor.md R85); a decode has `PHYS` as well. -/
def Response.IsField (r : Response) : Prop :=
  CarriesString r.litLen r.lit ∧ r.raw = r.lit ∧ r.bitsLen = none ∧ r.bits = none

/-- The fields of an `OK` response of `XFORM` (10_state.md R15, R26). -/
def Response.IsTransformed (r : Response) : Prop :=
  r.phys.isSome ∧ r.raw = none ∧ r.litLen = none ∧ r.lit = none ∧ r.bitsLen = none ∧ r.bits = none

/-- A response the unit may deliver: with an error status no data field holds a value, with `OK` exactly those of
one kind of operation do (10_state.md R26). -/
def Response.Legal (r : Response) : Prop :=
  match r.status with
  | .ok => r.IsCodec ∨ r.IsField ∨ r.IsTransformed
  | .rangeError => r = { status := .rangeError }
  | .illegalCommand => r = { status := .illegalCommand }

/-- Every response delivered is legal. -/
def State.Legal (s : State) : Prop := ∀ r ∈ s.responses, r.Legal

/-! ## Numbers -/

/-- A word of binary64 that carries a NaN: exponent all ones, fraction not zero (42_value_transformer.md R101). -/
def isNanWord (w : Word64) : Bool := w.extractLsb' 52 11 == 2047#11 && w.extractLsb' 0 52 != 0#52

/-- Equal words, but that two words that carry NaNs may differ in sign and payload (42_value_transformer.md R105,
93_implementation_defined.md U4). -/
def SameWordButNan (w w' : Word64) : Prop := w = w' ∨ isNanWord w = true ∧ isNanWord w' = true

/-- Equal responses, but that two NaN results may differ in sign and payload (10_state.md R24, R27;
42_value_transformer.md R105). -/
def Response.SameButNan (r r' : Response) : Prop :=
  r = r' ∨ ∃ w w', r.phys = some w ∧ r'.phys = some w' ∧ isNanWord w = true ∧ isNanWord w' = true ∧
    { r with phys := none } = { r' with phys := none }

/-- Two outcomes that are one and the same next state, but that in the last response a NaN result may differ in sign
and payload. -/
def OutcomesSameButNan (a b : Result) : Prop :=
  ∃ (t : State) (r r' : Response), a = .next { t with responses := t.responses ++ [r] } ∧
    b = .next { t with responses := t.responses ++ [r'] } ∧ r.SameButNan r'

/-- A magnitude in units of `2^-1074` that has at most 53 significant bits: the finite numbers of binary64, with no
bound above (42_value_transformer.md R101). -/
def Representable (m : Nat) : Prop := ∃ q e, q < 2 ^ 53 ∧ m = q * 2 ^ e

/-- A representable magnitude whose significand is even: the one that wins a tie (42_value_transformer.md R101). -/
def EvenSignificand (m : Nat) : Prop := ∃ q e, q < 2 ^ 53 ∧ q % 2 = 0 ∧ m = q * 2 ^ e

/-- The distance of `n` units of `2^-t` from `m` whole units, in units of `2^-t`. -/
def distance (n t m : Nat) : Nat := ((n : Int) - (m * 2 ^ t : Nat)).natAbs

/-- `m` is the representable magnitude nearest to `n` units of `2^-t`, ties to even: none is nearer, and if another is
as near, `m` has an even significand (42_value_transformer.md R101). -/
def NearestEven (n t m : Nat) : Prop :=
  Representable m ∧ (∀ k, Representable k → distance n t m ≤ distance n t k) ∧
    ∀ k, Representable k → k ≠ m → distance n t k = distance n t m → EvenSignificand m

/-- `v` is the exact number `(-1)^neg * n * 2^-(1074 + t)` rounded to nearest, ties to even; a rounded magnitude of
`2^1024`, that is `2^2098` units, is an infinity (42_value_transformer.md R101, R105; log entry 7). -/
def RoundsTo (v : Binary64) (neg : Bool) (n t : Nat) : Prop :=
  ∃ m, NearestEven n t m ∧ v = if m < twoPow 2098 then .fin neg m else .inf neg

/-- The exact value of a finite number, in units of `2^-1074`. -/
def signedUnits (neg : Bool) (mag : Nat) : Int := if neg then -(mag : Int) else mag

/-- The word of an infinity (42_value_transformer.md R101). -/
def infinityWord (neg : Bool) : Word64 := if neg then 0xFFF0000000000000#64 else 0x7FF0000000000000#64

end Sys2Proof.Machine
end

