-- ==== Sys2Proof/Certificates/Slice0/Obligations.lean ====
section
/-!
DEFINITION. The statements for the provers, rule by rule of the spec. A response is written out as a record, so that
a field not named there is absent; `{ s with pending := ..., responses := ... }` says that nothing else of the state
changes.

The sign and payload of a NaN result are free (42_value_transformer.md R105, 93_implementation_defined.md U4): a
statement about two answers compares a `PHYS` up to them. The field `nanDraws` is the model's own (log entry 5): where
a statement says that a transform advances it, that clause is the model's choice.
-/

open Sys2Proof Sys2Proof.Machine

/-! ## Reset, the step, errors -/

/-- 10_state.md section 7: no response exists until a command has been issued. That no command waits at reset is the
model's (log entry 4). -/
def Obligations.ResetHoldsNoCommandAndNoResponse : Prop :=
  State.reset.pending = [] ∧ State.reset.responses = []

/-- The invariant of `StepKeepsResponsesLegal` holds at reset. -/
def Obligations.ResetResponsesLegal : Prop := State.reset.Legal

/-- A step runs the decoded operation: when the oldest waiting command decodes, the operation is well formed and the
step is `exec` of it. -/
def Obligations.StepRunsDecodedOperation : Prop :=
  ∀ (s : State) (c : Command) (rest : List Command) (i : Instr), s.pending = c :: rest → decode c = .ok i →
    i.WellFormed ∧ step s = exec i s

/-- With no command to answer the unit stays as it is: the model's choice (log entry 2). -/
def Obligations.IdleUnitStaysAsItIs : Prop :=
  ∀ s : State, s.pending = [] → step s = .next s

/-- 70_reset_and_hazards.md R143: every operation terminates and produces a response; nothing leaves the unit
stuck. -/
def Obligations.EveryCommandGetsOneResponse : Prop :=
  ∀ (s : State) (c : Command) (rest : List Command), s.pending = c :: rest →
    ∃ t r, step s = .next t ∧ t.pending = rest ∧ t.responses = s.responses ++ [r]

/-- 30_encoding.md R57, 60_exceptions.md R121: a command is rejected exactly under the five conditions, every other
command names an operation, and the response to a rejected command is `ILLEGAL_COMMAND` with no data, nothing else
done. -/
def Obligations.IllegalCommandsExactlyTheReserved : Prop :=
  (∀ c : Command, (∃ e, decode c = .error e) ↔ IllegalCommand c) ∧
  (∀ c : Command, (∃ i, decode c = .ok i) ↔ ¬ IllegalCommand c) ∧
  (∀ (s : State) (c : Command) (rest : List Command), s.pending = c :: rest → IllegalCommand c →
    step s = .next { s with pending := rest, responses := s.responses ++ [{ status := .illegalCommand }] })

open Classical in
/-- 60_exceptions.md R126, R120: the status is `ILLEGAL_COMMAND` if decoding fails, else `RANGE_ERROR` if one of the
listed causes holds, else `OK`. -/
def Obligations.StatusFollowsErrorPriority : Prop :=
  ∀ (s : State) (c : Command) (rest : List Command), s.pending = c :: rest →
    ∃ t r, step s = .next t ∧ t.responses = s.responses ++ [r] ∧
      r.status = if IllegalCommand c then .illegalCommand
        else if RangeErrorCause c then .rangeError else .ok

/-- 60_exceptions.md R124, R127: an error records nothing beyond the status code of its own response. -/
def Obligations.ErrorChangesNothingButItsResponse : Prop :=
  ∀ (s : State) (c : Command) (rest : List Command), s.pending = c :: rest →
    ∃ t r, step s = .next t ∧ t.responses = s.responses ++ [r] ∧
      (r.status ≠ .ok → r = { status := r.status } ∧
        t = { s with pending := rest, responses := s.responses ++ [{ status := r.status }] })

/-- 60_exceptions.md R123, 10_state.md R15: the codes of `STATUS`; 3 is never produced. -/
def Obligations.StatusCodes : Prop :=
  Status.ok.code = 0 ∧ Status.rangeError.code = 1 ∧ Status.illegalCommand.code = 2 ∧
    ∀ st : Status, st.code ≠ 3

/-! ## Responses over a run -/

/-- Every step keeps every delivered response legal: no data beside an error status, exactly one kind of
operation's fields beside `OK`, a literal equal to the raw value, no bit set above a string's length
(10_state.md R22, R26). -/
def Obligations.StepKeepsResponsesLegal : Prop :=
  ∀ s t : State, s.Legal → step s = .next t → t.Legal

/-- 10_state.md R26: with `OK` exactly the fields that the "written by" column gives for the operation hold a value;
with an error of the operation none does, nor with the `ILLEGAL_COMMAND` of a command that names no operation. -/
def Obligations.ResponseFieldsFollowTheOperation : Prop :=
  (∀ (i : Instr) (s : State), ∃ t r, exec i s = .next t ∧ t.responses = s.responses ++ [r] ∧
    (r.status = .ok →
      r.raw.isSome = writesField i ∧ r.litLen.isSome = writesField i ∧ r.lit.isSome = writesField i ∧
      r.phys.isSome = writesPhys i ∧ r.bitsLen.isSome = writesBits i ∧ r.bits.isSome = writesBits i) ∧
    (r.status ≠ .ok → r = { status := r.status })) ∧
  (∀ (s : State) (c : Command) (rest : List Command) (e : Reject), s.pending = c :: rest → decode c = .error e →
    ∃ t, step s = .next t ∧ t.responses = s.responses ++ [{ status := .illegalCommand }])

/-- The frame of every operation: it gives a next state, in which the oldest waiting command waits no longer, one
response is added to those delivered, and nothing else of the unit changes (10_state.md R11, 20_memory.md R39,
60_exceptions.md R127). The last clause is the model's choice (log entry 5): its own draw counter moves only where
`PHYS` is written. -/
def Obligations.OperationsChangeOnlyTheirResponse : Prop :=
  ∀ (i : Instr) (s : State), ∃ t r, exec i s = .next t ∧ t.pending = s.pending.tail ∧
    t.responses = s.responses ++ [r] ∧
    t.nanDraws = if r.phys.isSome then s.nanDraws + 1 else s.nanDraws

/-- 10_state.md R11, R27: in any two states whose oldest commands agree on the fields their operation reads, the two
responses are the same, but for the sign and payload of a NaN: a response depends neither on the other commands nor on
earlier responses. -/
def Obligations.ResponseDependsOnItsCommandAlone : Prop :=
  ∀ (s s' : State) (c c' : Command) (rest rest' : List Command), s.pending = c :: rest → s'.pending = c' :: rest' →
    AgreeOnReadFields c c' →
    ∃ (t t' : State) (r r' : Response), step s = .next t ∧ step s' = .next t' ∧
      t.responses = s.responses ++ [r] ∧ t'.responses = s'.responses ++ [r'] ∧ r.SameButNan r'

/-- 70_reset_and_hazards.md R145: as many steps as commands wait answer them all, one response each, in command
order, the `k`-th response being the one the `k`-th command gets on its own, whatever the draw counter (but for the
sign and payload of a NaN). -/
def Obligations.RunAnswersCommandsInOrder : Prop :=
  ∀ s : State, ∃ (t : State) (rs : List Response),
    Host.Core.run Sys2Proof.core s.pending.length s = .next t ∧
    t.pending = [] ∧ t.responses = s.responses ++ rs ∧ rs.length = s.pending.length ∧
    ∀ (k : Nat) (c : Command) (n : Nat), s.pending[k]? = some c →
      ∃ (r r' : Response) (u : State), rs[k]? = some r ∧
        step { pending := [c], responses := [], nanDraws := n } = .next u ∧
        u.responses = [r'] ∧ r.SameButNan r'

/-- 30_encoding.md R58: a field an operation does not read changes neither what is decoded nor the step, but for the
sign and payload of a NaN. -/
def Obligations.UnreadFieldsAreIgnored : Prop :=
  ∀ c c' : Command, AgreeOnReadFields c c' →
    decode c = decode c' ∧
    ∀ (s : State) (rest : List Command),
      OutcomesSameButNan (step { s with pending := c :: rest }) (step { s with pending := c' :: rest })

/-! ## Encoding -/

/-- Decode and encode agree: every well-formed operation, with every operand at every value, is read back from its
command. -/
def Obligations.DecodeEncodeRoundTrip : Prop :=
  ∀ i : Instr, i.WellFormed → decode (encode i) = .ok i

/-- 30_encoding.md R52: each row's `match` value under the mask `0x800000FF` selects its operation, with the operand
fields of R51 at their places. -/
def Obligations.TableMatchSelectsOperation : Prop :=
  ∀ c : Command,
    let len := c.cw.extractLsb' 24 7
    let start := c.cw.extractLsb' 16 8
    let bits := c.cw.extractLsb' 8 8
    (c.cw &&& 0x800000FF#32 = 0x00000001#32 → len.toNat ≤ 8 → decode c = .ok (.b2bMsb len c.data)) ∧
    (c.cw &&& 0x800000FF#32 = 0x00000011#32 → len.toNat ≤ 8 → decode c = .ok (.b2bLsb len c.data)) ∧
    (c.cw &&& 0x800000FF#32 = 0x00000002#32 → len.toNat ≤ 8 → decode c = .ok (.extMsb len c.data start bits)) ∧
    (c.cw &&& 0x800000FF#32 = 0x00000012#32 → len.toNat ≤ 8 → decode c = .ok (.extLsb len c.data start bits)) ∧
    (c.cw &&& 0x800000FF#32 = 0x00000003#32 → len.toNat ≤ 64 → decode c = .ok (.xbsMsb len c.data start bits)) ∧
    (c.cw &&& 0x800000FF#32 = 0x00000004#32 → decode c = .ok (.xform c.data c.scale c.offset)) ∧
    (c.cw &&& 0x800000FF#32 = 0x00000005#32 → len.toNat ≤ 8 →
      decode c = .ok (.decMsb len c.data start bits c.scale c.offset)) ∧
    (c.cw &&& 0x800000FF#32 = 0x00000015#32 → len.toNat ≤ 8 →
      decode c = .ok (.decLsb len c.data start bits c.scale c.offset))

/-- Control words of 95_test_vectors.md sections 2.1 to 2.6, read as the operations they stand for, and the all-zero word
of section 2.7, which is not an operation (30_encoding.md R57). The name `reservedOperation` of the cause is the model's
own (log entry 15): the unit reports `ILLEGAL_COMMAND` for every cause. -/
def Obligations.SampleWordsDecode : Prop :=
  decode ⟨0x02000001, 0x3412, 0, 0⟩ = .ok (.b2bMsb 2 0x3412) ∧
  decode ⟨0x03000011, 0x030201, 0, 0⟩ = .ok (.b2bLsb 3 0x030201) ∧
  decode ⟨0x020B0802, 0x3412, 0, 0⟩ = .ok (.extMsb 2 0x3412 11 8) ∧
  decode ⟨0x02040812, 0x3412, 0, 0⟩ = .ok (.extLsb 2 0x3412 4 8) ∧
  decode ⟨0x100B0803, 0x1234, 0, 0⟩ = .ok (.xbsMsb 16 0x1234 11 8) ∧
  decode ⟨0x7FFFFF04, 18, 0x4000000000000000, 0x3FF0000000000000⟩ =
    .ok (.xform 18 0x4000000000000000 0x3FF0000000000000) ∧
  decode ⟨0x02070805, 0x3412, 0x3FD0000000000000, 0⟩ = .ok (.decMsb 2 0x3412 7 8 0x3FD0000000000000 0) ∧
  decode ⟨0x00000000, 0x3412, 0, 0⟩ = .error .reservedOperation

/-! ## Operands on the ports -/

/-- 30_encoding.md R54: the frame has `LEN` bytes, byte `k` is `DATA[8k+7:8k]`, and the bits of `DATA` above the frame
change no response (the sign and payload of a NaN apart). -/
def Obligations.FrameBytesOnDataPort : Prop :=
  (∀ (len : BitVec 7) (data : Word64), (frameOf len data).length = len.toNat ∧
    ∀ k < len.toNat, (frameOf len data)[k]? = some (data.extractLsb' (8 * k) 8)) ∧
  (∀ (len : BitVec 7) (data data' : Word64) (start bits : BitVec 8) (scale offset : Word64) (s : State),
    data.toNat % 2 ^ (8 * len.toNat) = data'.toNat % 2 ^ (8 * len.toNat) →
    exec (.b2bMsb len data) s = exec (.b2bMsb len data') s ∧
    exec (.b2bLsb len data) s = exec (.b2bLsb len data') s ∧
    exec (.extMsb len data start bits) s = exec (.extMsb len data' start bits) s ∧
    exec (.extLsb len data start bits) s = exec (.extLsb len data' start bits) s ∧
    OutcomesSameButNan (exec (.decMsb len data start bits scale offset) s)
      (exec (.decMsb len data' start bits scale offset) s) ∧
    OutcomesSameButNan (exec (.decLsb len data start bits scale offset) s)
      (exec (.decLsb len data' start bits scale offset) s))

/-- 30_encoding.md R55: the string of `XBS.MSB` has `LEN` characters, the `j`-th in bit `LEN - 1 - j` of `DATA`; the
bits of `DATA` above it change no response; and the pair that `B2B.MSB` returns for a frame, `8N` and `be(f)`, carries
the frame's MSB-order string. -/
def Obligations.StringBitsOnDataPort : Prop :=
  (∀ (len : BitVec 7) (data : Word64), (stringOf len data).length = len.toNat ∧
    ∀ j < len.toNat, (stringOf len data)[j]? = some (data.getLsbD (len.toNat - 1 - j))) ∧
  (∀ (len : BitVec 7) (data data' : Word64) (start bits : BitVec 8) (s : State),
    data.toNat % 2 ^ len.toNat = data'.toNat % 2 ^ len.toNat →
    exec (.xbsMsb len data start bits) s = exec (.xbsMsb len data' start bits) s) ∧
  (∀ (len : BitVec 7) (data : Word64) (s : State), len.toNat ≤ 8 →
    ∃ (n : BitVec 7) (w : Word64), exec (.b2bMsb len data) s = .next { s with
        pending := s.pending.tail
        responses := s.responses ++ [{ status := .ok, bitsLen := some n, bits := some w }] } ∧
      n.toNat = 8 * len.toNat ∧ w.toNat = be (frameOf len data) ∧
      stringOf n w = bytesToBits .msb (frameOf len data))

/-- 10_state.md R22: the length and value of a bit string determine it, and every value below `2^L` is one of a string
of length `L`. -/
def Obligations.BitStringIsLengthAndValue : Prop :=
  (∀ S : BitString, val S < 2 ^ S.length ∧ str S.length (val S) = S) ∧
  (∀ L v : Nat, v < 2 ^ L → val (str L v) = v)

/-! ## The frame's bits -/

/-- 20_memory.md R32: MSB position `p` is bit `p mod 8` from the top of byte `p div 8`, and index `p` of the MSB-order
string. -/
def Obligations.MsbPositionIsStringIndex : Prop :=
  ∀ (f : Frame) (p : Nat) (h : p / 8 < f.length),
    frameBitMsb f p = (f[p / 8]'h).getLsbD (7 - p % 8) ∧
    (bytesToBits .msb f)[p]? = some (frameBitMsb f p)

/-- 20_memory.md R33 and 40_bitstring_codec.md R74: LSB position `p` is bit `p mod 8` from the bottom of byte
`p div 8`, and index `8N - 1 - p` of the LSB-order string (the second part is marked as derived in R74). -/
def Obligations.LsbPositionCountsFromStringEnd : Prop :=
  ∀ (f : Frame) (p : Nat) (h : p / 8 < f.length),
    frameBitLsb f p = (f[p / 8]'h).getLsbD (p % 8) ∧
    (bytesToBits .lsb f)[8 * f.length - 1 - p]? = some (frameBitLsb f p)

/-- 20_memory.md R35 (marked as derived there): the two numberings as bits of the frame's two integers, and the
position in each that names the same physical bit. -/
def Obligations.FrameBitsAreIntegerBits : Prop :=
  ∀ (f : Frame) (p : Nat), p < 8 * f.length →
    frameBitLsb f p = (le f).testBit p ∧
    frameBitMsb f p = (be f).testBit (8 * f.length - 1 - p) ∧
    frameBitLsb f p = frameBitMsb f (8 * (p / 8) + 7 - p % 8)

/-! ## BitString Codec -/

/-- `B2B.MSB` completes: character `j` of the `8N`, bit `8N - 1 - j` of `BITS`, is bit `7 - j mod 8` of byte
`j div 8` (40_bitstring_codec.md R71). -/
def Obligations.B2bMsbReturnsBytesInOrder : Prop :=
  ∀ (len : BitVec 7) (data : Word64) (s : State), len.toNat ≤ 8 →
    ∃ (n : BitVec 7) (w : Word64), n.toNat = 8 * len.toNat ∧ w.toNat < 2 ^ (8 * len.toNat) ∧
      (∀ j < 8 * len.toNat, w.getLsbD (8 * len.toNat - 1 - j) =
        (data.extractLsb' (8 * (j / 8)) 8).getLsbD (7 - j % 8)) ∧
      exec (.b2bMsb len data) s = .next { s with
        pending := s.pending.tail
        responses := s.responses ++ [{ status := .ok, bitsLen := some n, bits := some w }] }

/-- `B2B.LSB` completes: character `j` of the `8N`, bit `8N - 1 - j` of `BITS`, is bit `7 - j mod 8` of byte
`N - 1 - j div 8` (40_bitstring_codec.md R72). -/
def Obligations.B2bLsbReturnsBytesReversed : Prop :=
  ∀ (len : BitVec 7) (data : Word64) (s : State), len.toNat ≤ 8 →
    ∃ (n : BitVec 7) (w : Word64), n.toNat = 8 * len.toNat ∧ w.toNat < 2 ^ (8 * len.toNat) ∧
      (∀ j < 8 * len.toNat, w.getLsbD (8 * len.toNat - 1 - j) =
        (data.extractLsb' (8 * (len.toNat - 1 - j / 8)) 8).getLsbD (7 - j % 8)) ∧
      exec (.b2bLsb len data) s = .next { s with
        pending := s.pending.tail
        responses := s.responses ++ [{ status := .ok, bitsLen := some n, bits := some w }] }

/-- 40_bitstring_codec.md R74 (marked as derived there): `B2B.MSB` returns the frame read as a big-endian number,
`B2B.LSB` the frame read as a little-endian number, which is the masked `DATA` word. -/
def Obligations.CodecReturnsFrameIntegers : Prop :=
  ∀ (len : BitVec 7) (data : Word64) (s : State), len.toNat ≤ 8 →
    ∃ (n : BitVec 7) (big little : Word64), n.toNat = 8 * len.toNat ∧ big.toNat = be (frameOf len data) ∧
      little.toNat = le (frameOf len data) ∧ little.toNat = data.toNat % 2 ^ (8 * len.toNat) ∧
      exec (.b2bMsb len data) s = .next { s with
        pending := s.pending.tail
        responses := s.responses ++ [{ status := .ok, bitsLen := some n, bits := some big }] } ∧
      exec (.b2bLsb len data) s = .next { s with
        pending := s.pending.tail
        responses := s.responses ++ [{ status := .ok, bitsLen := some n, bits := some little }] }

/-- 40_bitstring_codec.md R70: the operations return the bit string's length and value, the length is 8 times the
number of bytes, and for each order and length the conversion is one-to-one and onto. -/
def Obligations.CodecIsBijection : Prop :=
  (∀ (len : BitVec 7) (data : Word64) (s : State), len.toNat ≤ 8 →
    exec (.b2bMsb len data) s = .next { s with
        pending := s.pending.tail
        responses := s.responses ++ [{
      status := .ok
      bitsLen := some (BitVec.ofNat 7 (bytesToBits .msb (frameOf len data)).length)
      bits := some (BitVec.ofNat 64 (val (bytesToBits .msb (frameOf len data)))) }] } ∧
    exec (.b2bLsb len data) s = .next { s with
        pending := s.pending.tail
        responses := s.responses ++ [{
      status := .ok
      bitsLen := some (BitVec.ofNat 7 (bytesToBits .lsb (frameOf len data)).length)
      bits := some (BitVec.ofNat 64 (val (bytesToBits .lsb (frameOf len data)))) }] }) ∧
  ∀ order : ByteOrder,
    (∀ f : Frame, (bytesToBits order f).length = 8 * f.length) ∧
    (∀ f g : Frame, bytesToBits order f = bytesToBits order g → f = g) ∧
    (∀ (N : Nat) (S : BitString), S.length = 8 * N → ∃ f : Frame, f.length = N ∧ bytesToBits order f = S)

/-- 40_bitstring_codec.md R75: the empty frame gives the empty string in both orders. -/
def Obligations.EmptyFrameGivesEmptyString : Prop :=
  ∀ (data : Word64) (s : State),
    exec (.b2bMsb 0 data) s = .next { s with
        pending := s.pending.tail
        responses := s.responses ++ [{ status := .ok, bitsLen := some 0, bits := some 0 }] } ∧
    exec (.b2bLsb 0 data) s = .next { s with
        pending := s.pending.tail
        responses := s.responses ++ [{ status := .ok, bitsLen := some 0, bits := some 0 }] }

/-- 40_bitstring_codec.md R76 (marked as derived there): the four exact reversal identities. -/
def Obligations.CodecReversalIdentities : Prop :=
  ∀ b : Frame,
    bytesToBits .lsb b.reverse = bytesToBits .msb b ∧
    bytesToBits .msb b.reverse = bytesToBits .lsb b ∧
    (bytesToBits .msb b).reverse = bytesToBits .lsb (brev8 b) ∧
    (bytesToBits .lsb b).reverse = bytesToBits .msb (brev8 b)

/-! ## Field Extractor -/

/-- 41_field_extractor.md R81: a `bitLength` of 0 or above 64 raises `RangeError` in every extraction, whatever the
other operands. -/
def Obligations.BitLengthOutsideOneToSixtyFourIsRangeError : Prop :=
  ∀ (len : BitVec 7) (data : Word64) (start bits : BitVec 8) (scale offset : Word64) (s : State),
    bits.toNat = 0 ∨ 64 < bits.toNat →
    ∀ i ∈ [Instr.extMsb len data start bits, .extLsb len data start bits, .xbsMsb len data start bits,
        .decMsb len data start bits scale offset, .decLsb len data start bits scale offset],
      exec i s = .next { s with
        pending := s.pending.tail
        responses := s.responses ++ [{ status := .rangeError }] }

/-- 41_field_extractor.md section 6: outside its range condition an extraction or a decode raises `RangeError` and does
nothing else. -/
def Obligations.SpanOutsideOperandIsRangeError : Prop :=
  ∀ (len : BitVec 7) (data : Word64) (start bits : BitVec 8) (scale offset : Word64) (s : State),
    let failed : Result := Host.Outcome.next { s with
        pending := s.pending.tail
        responses := s.responses ++ [{ status := .rangeError }] }
    (¬ LsbLegal (8 * len.toNat) start.toNat bits.toNat →
      exec (.extLsb len data start bits) s = failed ∧ exec (.decLsb len data start bits scale offset) s = failed) ∧
    (¬ MsbLegal (8 * len.toNat) start.toNat bits.toNat →
      exec (.extMsb len data start bits) s = failed ∧ exec (.decMsb len data start bits scale offset) s = failed) ∧
    (¬ MsbLegal len.toNat start.toNat bits.toNat → exec (.xbsMsb len data start bits) s = failed)

/-- `EXT.LSB`, on every start and length. In range it completes: bit `k` of the raw value is the frame's bit at LSB
position `startBit + k`, that is bit `p mod 8` of byte `p div 8`, and the literal is the raw value in `bitLength`
characters. Out of range it raises `RangeError` and returns no data (41_field_extractor.md R83, R85; the frame on
`DATA` is 30_encoding.md R54). -/
def Obligations.ExtLsbReturnsFieldBitsOrRangeError : Prop :=
  ∀ (len : BitVec 7) (data : Word64) (start bits : BitVec 8) (s : State), len.toNat ≤ 8 →
    (LsbLegal (8 * len.toNat) start.toNat bits.toNat →
      ∃ (n : BitVec 7) (w : Word64), n.toNat = bits.toNat ∧
        (∀ k < 64, w.getLsbD k = (decide (k < bits.toNat) &&
          (data.extractLsb' (8 * ((start.toNat + k) / 8)) 8).getLsbD ((start.toNat + k) % 8))) ∧
        exec (.extLsb len data start bits) s = .next { s with
          pending := s.pending.tail
          responses := s.responses ++ [{ status := .ok, raw := some w, litLen := some n, lit := some w }] }) ∧
    (¬ LsbLegal (8 * len.toNat) start.toNat bits.toNat →
      exec (.extLsb len data start bits) s = .next { s with
        pending := s.pending.tail
        responses := s.responses ++ [{ status := .rangeError }] })

/-- `EXT.MSB`, on every start and length. In range it completes: step `i` of the backward walk reads MSB position
`startBit - i`, that is bit `7 - p mod 8` of byte `p div 8`, and it is bit `bitLength - 1 - i` of the raw value. Out
of range it raises `RangeError` and returns no data (41_field_extractor.md R86, R85; the direction of the walk is
the choice of 90_conflicts.md C1, log entry 9). -/
def Obligations.ExtMsbReturnsFieldBitsOrRangeError : Prop :=
  ∀ (len : BitVec 7) (data : Word64) (start bits : BitVec 8) (s : State), len.toNat ≤ 8 →
    (MsbLegal (8 * len.toNat) start.toNat bits.toNat →
      ∃ (n : BitVec 7) (w : Word64), n.toNat = bits.toNat ∧ w.toNat < 2 ^ bits.toNat ∧
        (∀ i < bits.toNat, w.getLsbD (bits.toNat - 1 - i) =
          (data.extractLsb' (8 * ((start.toNat - i) / 8)) 8).getLsbD (7 - (start.toNat - i) % 8)) ∧
        exec (.extMsb len data start bits) s = .next { s with
          pending := s.pending.tail
          responses := s.responses ++ [{ status := .ok, raw := some w, litLen := some n, lit := some w }] }) ∧
    (¬ MsbLegal (8 * len.toNat) start.toNat bits.toNat →
      exec (.extMsb len data start bits) s = .next { s with
        pending := s.pending.tail
        responses := s.responses ++ [{ status := .rangeError }] })

/-- `XBS.MSB`, on every start and length. In range it completes: step `i` reads character `startBit - i` of the string,
bit `LEN - 1 - p` of `DATA`, and it is bit `bitLength - 1 - i` of the raw value. Out of range it raises `RangeError`
and returns no data (41_field_extractor.md R94, R85; the string on `DATA` is 30_encoding.md R55). -/
def Obligations.XbsMsbReturnsFieldBitsOrRangeError : Prop :=
  ∀ (len : BitVec 7) (data : Word64) (start bits : BitVec 8) (s : State), len.toNat ≤ 64 →
    (MsbLegal len.toNat start.toNat bits.toNat →
      ∃ (n : BitVec 7) (w : Word64), n.toNat = bits.toNat ∧ w.toNat < 2 ^ bits.toNat ∧
        (∀ i < bits.toNat, w.getLsbD (bits.toNat - 1 - i) = data.getLsbD (len.toNat - 1 - (start.toNat - i))) ∧
        exec (.xbsMsb len data start bits) s = .next { s with
          pending := s.pending.tail
          responses := s.responses ++ [{ status := .ok, raw := some w, litLen := some n, lit := some w }] }) ∧
    (¬ MsbLegal len.toNat start.toNat bits.toNat →
      exec (.xbsMsb len data start bits) s = .next { s with
        pending := s.pending.tail
        responses := s.responses ++ [{ status := .rangeError }] })

/-- 41_field_extractor.md R84: LSB mode is a right shift and a mask of the little-endian frame, and its literal is a
slice of the LSB-order string (the slice is marked as derived there); for a frame of any length. -/
def Obligations.LsbModeIsShiftAndMask : Prop :=
  ∀ (f : Frame) (s L : Nat), LsbLegal (8 * f.length) s L →
    extractLsb f s L = some
      { raw := (le f >>> s) &&& (2 ^ L - 1)
        literal := ((bytesToBits .lsb f).drop (8 * f.length - s - L)).take L }

/-- 41_field_extractor.md R88 (marked as derived there): the closed forms of MSB mode, for a frame of any length: the
slice of the MSB-order string read backward, the reversed shift and mask of the big-endian frame, and LSB mode on
the frame with every byte bit-reversed. The direction of the walk is 90_conflicts.md C1 (log entry 9). -/
def Obligations.MsbModeIsReversedShiftAndMask : Prop :=
  ∀ (f : Frame) (s L : Nat), MsbLegal (8 * f.length) s L →
    extractMsb f s L = some
      { raw := bitrev L ((be f >>> (8 * f.length - 1 - s)) &&& (2 ^ L - 1))
        literal := (((bytesToBits .msb f).drop (s + 1 - L)).take L).reverse } ∧
    extractMsb f s L = extractLsb (brev8 f) (s + 1 - L) L

/-- 41_field_extractor.md R93: the bit-string path has no semantics of its own: on the string of a frame it yields
results bit-identical to the byte-buffer path, for a frame of any length and for the operations, `RangeError`
included; and there is no LSB form of it. -/
def Obligations.BitStringPathAgreesWithFramePath : Prop :=
  (∀ (f : Frame) (s L : Nat), extractString (bytesToBits .msb f) s L = extractMsb f s L) ∧
  (∀ (len : BitVec 7) (data : Word64) (start bits : BitVec 8) (s : State), len.toNat ≤ 8 →
    exec (.xbsMsb (BitVec.ofNat 7 (8 * len.toNat)) (BitVec.ofNat 64 (be (frameOf len data))) start bits) s =
      exec (.extMsb len data start bits) s) ∧
  (∀ c : Command, c.cw.extractLsb' 0 4 = 3 → c.cw.extractLsb' 4 1 = 1 → ∃ e, decode c = .error e)

/-- 41_field_extractor.md R91 (marked as derived there): a one-bit field in MSB mode is the one-bit field in LSB mode
at the position of the same physical bit, `RangeError` included. For one-bit fields both readings of MSB mode agree
(section 7), so this holds whichever way 90_conflicts.md C1 had gone. -/
def Obligations.SingleBitMsbIsMirroredLsb : Prop :=
  ∀ (len : BitVec 7) (data : Word64) (start : BitVec 8) (s : State),
    exec (.extMsb len data start 1) s =
      exec (.extLsb len data (BitVec.ofNat 8 (8 * (start.toNat / 8) + 7 - start.toNat % 8)) 1) s

/-- 41_field_extractor.md R92 (marked as derived there): every extraction from the empty frame or the empty string
raises `RangeError`. -/
def Obligations.EmptyOperandIsRangeError : Prop :=
  ∀ (data : Word64) (start bits : BitVec 8) (scale offset : Word64) (s : State),
    ∀ i ∈ [Instr.extMsb 0 data start bits, .extLsb 0 data start bits, .xbsMsb 0 data start bits,
        .decMsb 0 data start bits scale offset, .decLsb 0 data start bits scale offset],
      exec i s = .next { s with
        pending := s.pending.tail
        responses := s.responses ++ [{ status := .rangeError }] }

/-- 41_field_extractor.md R85, R97: the raw value of every extraction fits its field, and the literal is its rendering
in exactly `bitLength` characters, most significant first. -/
def Obligations.RawFitsFieldAndLiteralSpellsIt : Prop :=
  ∀ (f : Frame) (S : BitString) (s L : Nat) (e : Extracted),
    extractLsb f s L = some e ∨ extractMsb f s L = some e ∨ extractString S s L = some e →
    e.raw < 2 ^ L ∧ L ≤ 64 ∧ e.literal.length = L ∧ val e.literal = e.raw ∧
    ∀ j < L, e.literal[j]? = some (e.raw.testBit (L - 1 - j))

/-! ## Value Transformer -/

/-- `XFORM` completes: with scale and offset both `+0` or `-0` the physical value is `raw` as a number, else the
product rounded and then the sum rounded (42_value_transformer.md R100, R102, R104, R107). What the three operations
give is said by `RoundingIsToNearestTiesToEven`. The number format is the default (log entry 6), a NaN is carried by
some NaN word, and the draw counter is the model's (log entry 5). -/
def Obligations.XformIsIdentityOrLinear : Prop :=
  ∀ (raw scale offset : Word64) (s : State),
    let done : Binary64 → Prop := fun v => ∃ nan : Word64, isNanWord nan = true ∧
      exec (.xform raw scale offset) s = .next { s with
        pending := s.pending.tail
        responses := s.responses ++ [{ status := .ok, phys := some (binary64ToWord nan v) }]
        nanDraws := s.nanDraws + 1 }
    let zero := fun w : Word64 => w = 0#64 ∨ w = 0x8000000000000000#64
    (zero scale ∧ zero offset → done (binary64OfUnsigned raw)) ∧
    (¬ (zero scale ∧ zero offset) →
      done (binary64Add (binary64Mul (binary64OfUnsigned raw) (binary64OfWord scale)) (binary64OfWord offset)))

/-- 42_value_transformer.md R102: over any number format, the identity case needs both to be zero; else the
formula. -/
def Obligations.TransformOverAnyNumberFormat : Prop :=
  ∀ (num : Config.NumFormat) (raw : Word64) (scale offset : num.F),
    (num.fiszero scale = true → num.fiszero offset = true →
      transform num raw scale offset = num.u2f raw) ∧
    (num.fiszero scale = false ∨ num.fiszero offset = false →
      transform num raw scale offset = num.fadd (num.fmul (num.u2f raw) scale) offset)

/-- 42_value_transformer.md R108: in the identity case the physical value is the number nearest the raw value, ties to
even; it is exactly the raw value when that is below `2^53` or has at most 53 significant bits; `2^53 + 1` gives `2^53`
and `2^64 - 1` gives `2^64`. The draw counter is the model's (log entry 5). -/
def Obligations.IdentityTransformIsExact : Prop :=
  ∀ (raw scale offset : Word64) (s : State),
    scale = 0#64 ∨ scale = 0x8000000000000000#64 → offset = 0#64 ∨ offset = 0x8000000000000000#64 →
    ∃ (w : Word64) (m : Nat), binary64OfWord w = .fin false m ∧ NearestEven (twoPow 1074 * raw.toNat) 0 m ∧
      (raw.toNat < 2 ^ 53 ∨ Representable raw.toNat → m = twoPow 1074 * raw.toNat) ∧
      (raw = 0x0020000000000001#64 → w = 0x4340000000000000#64) ∧
      (raw = 0xFFFFFFFFFFFFFFFF#64 → w = 0x43F0000000000000#64) ∧
      exec (.xform raw scale offset) s = .next { s with
        pending := s.pending.tail
        responses := s.responses ++ [{ status := .ok, phys := some w }]
        nanDraws := s.nanDraws + 1 }

/-- 42_value_transformer.md R103 (marked as derived there): with scale zero and offset a finite number or infinity
that is not zero, every raw value maps to the offset itself. The draw counter is the model's (log entry 5). -/
def Obligations.ZeroScaleGivesOffset : Prop :=
  ∀ (raw scale offset : Word64) (s : State), scale = 0#64 ∨ scale = 0x8000000000000000#64 →
    offset ≠ 0#64 → offset ≠ 0x8000000000000000#64 → isNanWord offset = false →
    exec (.xform raw scale offset) s = .next { s with
        pending := s.pending.tail
        responses := s.responses ++ [{ status := .ok, phys := some offset }]
        nanDraws := s.nanDraws + 1 }

/-- 42_value_transformer.md R103 (marked as derived there): with offset zero and scale a number that is not zero, the
physical value equals the rounded product as a number: the same word, but that a zero may differ in sign and a NaN in
sign and payload. The draw counter is the model's (log entry 5). -/
def Obligations.ZeroOffsetGivesProduct : Prop :=
  ∀ (raw scale offset : Word64) (s : State), offset = 0#64 ∨ offset = 0x8000000000000000#64 →
    scale ≠ 0#64 → scale ≠ 0x8000000000000000#64 →
    ∃ (v : Binary64) (nan : Word64), isNanWord nan = true ∧
      (v = binary64Mul (binary64OfUnsigned raw) (binary64OfWord scale) ∨
        binary64IsZero v = true ∧ binary64IsZero (binary64Mul (binary64OfUnsigned raw) (binary64OfWord scale)) = true) ∧
      exec (.xform raw scale offset) s = .next { s with
        pending := s.pending.tail
        responses := s.responses ++ [{ status := .ok, phys := some (binary64ToWord nan v) }],
        nanDraws := s.nanDraws + 1 }

/-- 42_value_transformer.md R105: the result is a NaN exactly when the scale or the offset is one, or zero is multiplied
by an infinity, or infinities of two signs are added: an infinite scale and offset, or an offset infinite against a
product that overflows (log entry 7 for the bound). The status is `OK`, and the sign and payload are free. The draw
counter is the model's (log entry 5). -/
def Obligations.InvalidTransformGivesNan : Prop :=
  ∀ (raw scale offset : Word64) (s : State),
    let infinite := fun w : Word64 => w = 0x7FF0000000000000#64 ∨ w = 0xFFF0000000000000#64
    ∃ w : Word64,
      (isNanWord w = true ↔
        isNanWord scale = true ∨ isNanWord offset = true ∨ (raw = 0#64 ∧ infinite scale) ∨
          (infinite scale ∧ infinite offset ∧ scale ≠ offset) ∨
          ∃ neg x m, binary64OfUnsigned raw = .fin false x ∧ binary64OfWord scale = .fin neg m ∧
            twoPow 2098 ≤ roundMag (x * m) 1074 ∧ offset = infinityWord (!neg)) ∧
      exec (.xform raw scale offset) s = .next { s with
        pending := s.pending.tail
        responses := s.responses ++ [{ status := .ok, phys := some w }]
        nanDraws := s.nanDraws + 1 }

/-- 42_value_transformer.md R105: overflow gives an infinity of the sign of the exact result, whether it is the product
or the sum that overflows, and an infinite scale or offset gives that infinity, unless `InvalidTransformGivesNan`
applies; the status is `OK`. The rounded magnitudes are those of `RoundingIsToNearestTiesToEven`, the bound and the
signs log entry 7. The draw counter is the model's (log entry 5). -/
def Obligations.OverflowAndInfinitiesGiveInfinity : Prop :=
  ∀ (raw scale offset : Word64) (s : State),
    let gives : Word64 → Prop := fun w => exec (.xform raw scale offset) s = .next { s with
      pending := s.pending.tail
      responses := s.responses ++ [{ status := .ok, phys := some w }]
      nanDraws := s.nanDraws + 1 }
    let finite := fun w : Word64 => ∃ neg m, binary64OfWord w = .fin neg m
    (∀ neg, scale = infinityWord neg → raw ≠ 0#64 → finite offset ∨ offset = infinityWord neg → gives scale) ∧
    (∀ neg x m, binary64OfUnsigned raw = .fin false x → binary64OfWord scale = .fin neg m →
      (twoPow 2098 ≤ roundMag (x * m) 1074 → finite offset ∨ offset = infinityWord neg → gives (infinityWord neg)) ∧
      (roundMag (x * m) 1074 < twoPow 2098 →
        (∀ neg', offset = infinityWord neg' → gives offset) ∧
        ∀ k, binary64OfWord offset = .fin neg k → twoPow 2098 ≤ roundMag (roundMag (x * m) 1074 + k) 0 →
          gives (infinityWord neg)))

/-- 42_value_transformer.md R101: the layout of a word (sign in bit 63, exponent in bits 62:52, fraction in bits 51:0)
with the number it carries; a word that is no NaN is carried without change, and so is a number: a representable
magnitude below `2^1024`, or an infinity; and the word drawn for a NaN is a NaN (R105). Exponent 0 is that of the
subnormal numbers (log entry 7). -/
def Obligations.WordsCarryNumbersExactly : Prop :=
  (∀ w : Word64,
    let neg := w.getLsbD 63
    let e := (w.extractLsb' 52 11).toNat
    let fr := (w.extractLsb' 0 52).toNat
    (e = 0 → binary64OfWord w = .fin neg fr) ∧
    (0 < e → e < 2047 → binary64OfWord w = .fin neg ((2 ^ 52 + fr) * 2 ^ (e - 1))) ∧
    (e = 2047 → fr = 0 → binary64OfWord w = .inf neg) ∧
    (e = 2047 → fr ≠ 0 → binary64OfWord w = .nan)) ∧
  (∀ nan w : Word64, isNanWord w = false → binary64ToWord nan (binary64OfWord w) = w) ∧
  (∀ (nan : Word64) (neg : Bool) (m : Nat), Representable m → m < twoPow 2098 →
    binary64OfWord (binary64ToWord nan (.fin neg m)) = .fin neg m) ∧
  (∀ (nan : Word64) (neg : Bool), binary64ToWord nan (.inf neg) = infinityWord neg) ∧
  (∀ (i : Instr) (s : State), isNanWord (nanWord i s) = true)

/-- 42_value_transformer.md R101, R104: every rounding is to nearest, ties to even, and once per operation: `roundMag`
gives the nearest representable magnitude, and with it the product and the sum of any two finite numbers and the
conversion of any raw value are the exact result rounded. Overflow and the sign of an exact zero sum are log
entry 7. -/
def Obligations.RoundingIsToNearestTiesToEven : Prop :=
  (∀ n t : Nat, NearestEven n t (roundMag n t)) ∧
  (∀ (a : Bool) (m : Nat) (b : Bool) (k : Nat),
    RoundsTo (binary64Mul (.fin a m) (.fin b k)) (a ^^ b) (m * k) 1074) ∧
  (∀ (a : Bool) (m : Nat) (b : Bool) (k : Nat),
    let exact := signedUnits a m + signedUnits b k
    (exact ≠ 0 → RoundsTo (binary64Add (.fin a m) (.fin b k)) (decide (exact < 0)) exact.natAbs 0) ∧
    (exact = 0 → binary64Add (.fin a m) (.fin b k) = .fin (a && b) 0)) ∧
  (∀ v : Word64, ∃ m, NearestEven (twoPow 1074 * v.toNat) 0 m ∧ binary64OfUnsigned v = .fin false m)

/-! ## Field decode -/

/-- `DEC.MSB` completes: the raw value and the literal of `EXT.MSB`, and `PHYS` from that raw value
(43_decode_field.md R110; the direction of the walk is 90_conflicts.md C1, log entry 9). A NaN is carried by some NaN
word, and the draw counter is the model's (log entry 5). -/
def Obligations.DecMsbReturnsFieldAndPhysicalValue : Prop :=
  ∀ (len : BitVec 7) (data : Word64) (start bits : BitVec 8) (scale offset : Word64) (s : State), len.toNat ≤ 8 →
    MsbLegal (8 * len.toNat) start.toNat bits.toNat →
    ∃ (n : BitVec 7) (w nan : Word64), isNanWord nan = true ∧ n.toNat = bits.toNat ∧ w.toNat < 2 ^ bits.toNat ∧
      (∀ i < bits.toNat, w.getLsbD (bits.toNat - 1 - i) =
        (data.extractLsb' (8 * ((start.toNat - i) / 8)) 8).getLsbD (7 - (start.toNat - i) % 8)) ∧
      exec (.decMsb len data start bits scale offset) s = .next { s with
        pending := s.pending.tail
        responses := s.responses ++ [{
          status := .ok, raw := some w, litLen := some n, lit := some w
          phys := some (physWord nan w scale offset) }],
        nanDraws := s.nanDraws + 1 }

/-- `DEC.LSB` completes: the raw value and the literal of `EXT.LSB`, and `PHYS` from that raw value
(43_decode_field.md R111). A NaN is carried by some NaN word, and the draw counter is the model's (log entry 5). -/
def Obligations.DecLsbReturnsFieldAndPhysicalValue : Prop :=
  ∀ (len : BitVec 7) (data : Word64) (start bits : BitVec 8) (scale offset : Word64) (s : State), len.toNat ≤ 8 →
    LsbLegal (8 * len.toNat) start.toNat bits.toNat →
    ∃ (n : BitVec 7) (w nan : Word64), isNanWord nan = true ∧ n.toNat = bits.toNat ∧
      (∀ k < 64, w.getLsbD k = (decide (k < bits.toNat) &&
        (data.extractLsb' (8 * ((start.toNat + k) / 8)) 8).getLsbD ((start.toNat + k) % 8))) ∧
      exec (.decLsb len data start bits scale offset) s = .next { s with
        pending := s.pending.tail
        responses := s.responses ++ [{
          status := .ok, raw := some w, litLen := some n, lit := some w
          phys := some (physWord nan w scale offset) }],
        nanDraws := s.nanDraws + 1 }

/-- 43_decode_field.md R110 to R113: a decode is the extraction and then the transform of its raw value, unchanged: if
the extraction raises `RangeError` so does the decode, with no data and no transform; else its response is the
extraction's with the `PHYS` that `XFORM` gives for that raw value, but for the sign and payload of a NaN. In both byte
orders. What becomes of the model's draw counter is left open. -/
def Obligations.DecodeIsExtractThenTransform : Prop :=
  ∀ (len : BitVec 7) (data : Word64) (start bits : BitVec 8) (scale offset : Word64) (s : State),
    ∀ p ∈ [(Instr.extMsb len data start bits, Instr.decMsb len data start bits scale offset),
        (Instr.extLsb len data start bits, Instr.decLsb len data start bits scale offset)],
      ∃ r : Response, exec p.1 s = .next { s with
          pending := s.pending.tail
          responses := s.responses ++ [r] } ∧
        (r.raw = none → r = { status := .rangeError } ∧ exec p.2 s = exec p.1 s) ∧
        (∀ w : Word64, r.raw = some w → ∃ (phys phys' : Word64) (n n' : Nat), SameWordButNan phys phys' ∧
          exec (.xform w scale offset) s = .next { s with
            pending := s.pending.tail
            responses := s.responses ++ [{ status := .ok, phys := some phys }]
            nanDraws := n } ∧
          exec p.2 s = .next { s with
            pending := s.pending.tail
            responses := s.responses ++ [{ r with phys := some phys' }]
            nanDraws := n' })
end

