-- ==== Sys2Proof/Laws/State.lean ====
section
/-!
SUPPORT. What each update of the state changes and what it leaves: one lemma per field per update.
-/
namespace Sys2Proof.Machine

@[simp] theorem reset_pending : State.reset.pending = [] := rfl
@[simp] theorem reset_responses : State.reset.responses = [] := rfl

@[simp] theorem issue_pending (c : Command) (s : State) : (s.issue c).pending = s.pending ++ [c] := rfl
@[simp] theorem issue_responses (c : Command) (s : State) : (s.issue c).responses = s.responses := rfl
@[simp] theorem issue_nanDraws (c : Command) (s : State) : (s.issue c).nanDraws = s.nanDraws := rfl

@[simp] theorem respond_pending (r : Response) (s : State) : (s.respond r).pending = s.pending.tail := rfl
@[simp] theorem respond_responses (r : Response) (s : State) : (s.respond r).responses = s.responses ++ [r] := rfl
@[simp] theorem respond_nanDraws (r : Response) (s : State) : (s.respond r).nanDraws = s.nanDraws := rfl

@[simp] theorem drawn_pending (s : State) : s.drawn.pending = s.pending := rfl
@[simp] theorem drawn_responses (s : State) : s.drawn.responses = s.responses := rfl
@[simp] theorem drawn_nanDraws (s : State) : s.drawn.nanDraws = s.nanDraws + 1 := rfl

/-- The state as a record after a response, for statements that write the next state out. -/
theorem respond_eq (r : Response) (s : State) :
    s.respond r = { s with pending := s.pending.tail, responses := s.responses ++ [r] } := rfl

/-- Answering the one command that heads the list leaves the others. -/
theorem respond_eq_of_pending {s : State} {c : Command} {rest : List Command} (h : s.pending = c :: rest)
    (r : Response) : s.respond r = { s with pending := rest, responses := s.responses ++ [r] } := by
  simp [respond_eq, h]

end Sys2Proof.Machine
end

