-- ==== Sys2Proof/Laws/Answers.lean ====
section
/-!
SUPPORT. What each shared operation that ends a meaning can do, said once: answering, raising an error, answering an
extraction, a transform and a decode; and what one step does with the oldest command.
-/
namespace Sys2Proof.Machine

/-- Answering always gives a next state, with that one response added. -/
theorem answer_eq_next {r : Response} {s t : State} : answer r s = .next t ↔ t = s.respond r := by
  simp only [answer, Host.Outcome.next.injEq]
  exact eq_comm

/-- Raising an error always gives a next state, with a response that holds the status and no data. -/
theorem raise_eq_next {e : Status} {s t : State} : raise e s = .next t ↔ t = s.respond { status := e } :=
  answer_eq_next

theorem answerExtraction_none (s : State) : answerExtraction none s = raise .rangeError s := rfl

theorem answerExtraction_some (e : Extracted) (s : State) :
    answerExtraction (some e) s = answer (extractedResponse e) s := rfl

/-- An extraction is answered by its response or by `RANGE_ERROR`. -/
theorem answerExtraction_cases {o : Option Extracted} {s t : State} (h : answerExtraction o s = .next t) :
    (o = none ∧ t = s.respond { status := .rangeError }) ∨
      ∃ e, o = some e ∧ t = s.respond (extractedResponse e) := by
  cases o with
  | none => exact .inl ⟨rfl, raise_eq_next.mp h⟩
  | some e => exact .inr ⟨e, rfl, answer_eq_next.mp h⟩

/-- A transform always gives a next state: the response with `PHYS` added, and the draw counted. -/
theorem answerTransformed_eq_next {i : Instr} {r : Response} {raw scale offset : Word64} {s t : State} :
    answerTransformed i r raw scale offset s = .next t ↔
      t = s.drawn.respond { r with phys := some (physWord (nanWord i s) raw scale offset) } :=
  answer_eq_next

theorem answerDecode_none (i : Instr) (scale offset : Word64) (s : State) :
    answerDecode i none scale offset s = raise .rangeError s := rfl

theorem answerDecode_some (i : Instr) (e : Extracted) (scale offset : Word64) (s : State) :
    answerDecode i (some e) scale offset s =
      answerTransformed i (extractedResponse e) (BitVec.ofNat 64 e.raw) scale offset s := rfl

/-- A decode is answered by `RANGE_ERROR`, or by the extraction's response with `PHYS` added. -/
theorem answerDecode_cases {i : Instr} {o : Option Extracted} {scale offset : Word64} {s t : State}
    (h : answerDecode i o scale offset s = .next t) :
    (o = none ∧ t = s.respond { status := .rangeError }) ∨
      ∃ e, o = some e ∧ t = s.drawn.respond { extractedResponse e with
        phys := some (physWord (nanWord i s) (BitVec.ofNat 64 e.raw) scale offset) } := by
  cases o with
  | none => exact .inl ⟨rfl, raise_eq_next.mp h⟩
  | some e => exact .inr ⟨e, rfl, answerTransformed_eq_next.mp h⟩

/-- One step with a command to answer, by what the decoder reads from it. -/
theorem step_cons {s : State} {c : Command} {rest : List Command} (h : s.pending = c :: rest) :
    step s = match decode c with
      | .ok i => exec i s
      | .error _ => raise .illegalCommand s := by
  cases hd : decode c <;> simp only [step, h, hd]

/-- One step with no command to answer changes nothing (log entry 2). -/
theorem step_of_pending_nil {s : State} (h : s.pending = []) : step s = .next s := by
  simp [step, h]

end Sys2Proof.Machine
end

