-- ==== Sys2Proof/Laws/Bits.lean ====
section
/-!
SUPPORT. The small lemmas of bit strings, frames, operand words and the extraction loop.
-/
namespace Sys2Proof.Machine

/-! ## Bit strings -/

@[simp] theorem val_nil : val [] = 0 := rfl

theorem val_cons (b : Bool) (S : BitString) : val (b :: S) = b.toNat * 2 ^ S.length + val S := rfl

/-- `val` of a concatenation: the left part stands above the right one. -/
theorem val_append (S T : BitString) : val (S ++ T) = val S * 2 ^ T.length + val T := by
  induction S with
  | nil => simp
  | cons b S ih => simp [val_cons, ih, pow_add]; ring

@[simp] theorem str_length (L v : Nat) : (str L v).length = L := by simp [str]

theorem str_getElem? {L j : Nat} (v : Nat) (h : j < L) : (str L v)[j]? = some (v.testBit (L - 1 - j)) := by
  simp [str, h]

@[simp] theorem byteBits_length (b : Byte) : (byteBits b).length = 8 := rfl

/-! ## Operand words -/

@[simp] theorem frameOf_length (len : BitVec 7) (data : Word64) : (frameOf len data).length = len.toNat := by
  simp [frameOf]

@[simp] theorem stringOf_length (len : BitVec 7) (data : Word64) : (stringOf len data).length = len.toNat :=
  str_length _ _

@[simp] theorem brev8_length (f : Frame) : (brev8 f).length = f.length := by simp [brev8]

/-! ## The extraction loop -/

/-- The loop is a fold over its steps, the last step outermost. -/
theorem gather_succ (L : Nat) (source : Nat → Bool) (weight : Nat → Nat) :
    gather (L + 1) source weight = gather L source weight ||| (source L).toNat <<< weight L := by
  simp [gather, List.range_succ]

/-- Bit `k` of the loop's result is set exactly when some step of weight `2^k` read a set bit. -/
theorem testBit_gather (L k : Nat) (source : Nat → Bool) (weight : Nat → Nat) :
    (gather L source weight).testBit k = true ↔ ∃ i < L, weight i = k ∧ source i = true := by
  induction L with
  | zero => simp [gather]
  | succ L ih =>
    have one : ((source L).toNat <<< weight L).testBit k = true ↔ weight L = k ∧ source L = true := by
      cases hs : source L
      · simp
      · simp [Nat.testBit_shiftLeft, Nat.testBit_one_eq_true_iff_self_eq_zero]
        omega
    rw [gather_succ, Nat.testBit_or, Bool.or_eq_true, ih, one]
    constructor
    · rintro (⟨i, hi, h⟩ | h)
      · exact ⟨i, Nat.lt_succ_of_lt hi, h⟩
      · exact ⟨L, Nat.lt_succ_self L, h⟩
    · rintro ⟨i, hi, h⟩
      rcases Nat.lt_succ_iff_lt_or_eq.mp hi with h' | rfl
      · exact .inl ⟨i, h', h⟩
      · exact .inr h

/-! ## Extractions -/

theorem bitLengthLegal_iff {L : Nat} : bitLengthLegal L = true ↔ 1 ≤ L ∧ L ≤ 64 :=
  decide_eq_true_iff

theorem lsbSpanFits_iff {total s L : Nat} : lsbSpanFits total s L = true ↔ s + L ≤ total := by
  simp [lsbSpanFits]

theorem msbSpanFits_iff {total s L : Nat} : msbSpanFits total s L = true ↔ s < total ∧ L ≤ s + 1 := by
  simp [msbSpanFits]

/-- An LSB extraction succeeds exactly when its length and span are legal. -/
theorem extractLsb_eq_some {f : Frame} {s L : Nat} {e : Extracted} :
    extractLsb f s L = some e ↔
      (1 ≤ L ∧ L ≤ 64) ∧ s + L ≤ 8 * f.length ∧ e = extractedOf L (rawLsb f s L) := by
  unfold extractLsb
  split <;> rename_i h <;> simp only [bitLengthLegal_iff, lsbSpanFits_iff, Bool.and_eq_true] at h
  · simp [h, eq_comm]
  · simp only [reduceCtorEq, false_iff]
    tauto

/-- An MSB extraction succeeds exactly when its length and span are legal. -/
theorem extractMsb_eq_some {f : Frame} {s L : Nat} {e : Extracted} :
    extractMsb f s L = some e ↔
      (1 ≤ L ∧ L ≤ 64) ∧ (s < 8 * f.length ∧ L ≤ s + 1) ∧ e = extractedOf L (rawMsb f s L) := by
  unfold extractMsb
  split <;> rename_i h <;> simp only [bitLengthLegal_iff, msbSpanFits_iff, Bool.and_eq_true] at h
  · simp [h, eq_comm]
  · simp only [reduceCtorEq, false_iff]
    tauto

/-- An extraction from a bit string succeeds exactly when its length and span are legal. -/
theorem extractString_eq_some {S : BitString} {s L : Nat} {e : Extracted} :
    extractString S s L = some e ↔
      (1 ≤ L ∧ L ≤ 64) ∧ (s < S.length ∧ L ≤ s + 1) ∧ e = extractedOf L (rawString S s L) := by
  unfold extractString
  split <;> rename_i h <;> simp only [bitLengthLegal_iff, msbSpanFits_iff, Bool.and_eq_true] at h
  · simp [h, eq_comm]
  · simp only [reduceCtorEq, false_iff]
    tauto

@[simp] theorem extractedOf_raw (L raw : Nat) : (extractedOf L raw).raw = raw := rfl
@[simp] theorem extractedOf_literal (L raw : Nat) : (extractedOf L raw).literal = str L raw := rfl

end Sys2Proof.Machine
end

