-- ==== Sys2Proof/Laws/Decode.lean ====
section
/-!
SUPPORT. The small lemmas of decoding and encoding: the fields of a packed control word, and what a failed "need"
answers.
-/
namespace Sys2Proof

theorem frameLenLegal_iff {len : BitVec 7} : frameLenLegal len = true ↔ len.toNat ≤ 8 := decide_eq_true_iff

theorem stringLenLegal_iff {len : BitVec 7} : stringLenLegal len = true ↔ len.toNat ≤ 64 := decide_eq_true_iff

/-- A "need" fails exactly when the length is not legal, and always with the same reason. -/
theorem need_eq_error {legal : Bool} {i : Instr} {e : Reject} :
    need legal i = .error e ↔ legal = false ∧ e = .lengthOutOfRange := by
  cases legal <;> simp [need, eq_comm]

/-- A "need" that holds answers the operation itself. -/
theorem need_eq_ok {legal : Bool} {i j : Instr} : need legal i = .ok j ↔ legal = true ∧ i = j := by
  cases legal <;> simp [need]

/-- A command decodes only with its reserved bits zero, by the table of 30_encoding.md R61. -/
theorem decode_eq_ok {c : Command} {i : Instr} :
    decode c = .ok i ↔ (rsv1Of c.cw = 0 ∧ rsv0Of c.cw = 0) ∧ decodeOperation c = .ok i := by
  unfold decode
  split <;> simp_all

section PackedFields
variable (len : BitVec 7) (start bits : BitVec 8) (ord : BitVec 1) (op : BitVec 4)

/-- Bit `k` of a packed control word, by the field it lies in (30_encoding.md R51). -/
theorem packCw_getLsbD (k : Nat) : (packCw len start bits ord op).getLsbD k =
    if k < 4 then op.getLsbD k
    else if k < 5 then ord.getLsbD (k - 4)
    else if k < 8 then false
    else if k < 16 then bits.getLsbD (k - 8)
    else if k < 24 then start.getLsbD (k - 16)
    else if k < 31 then len.getLsbD (k - 24)
    else false := by
  simp only [packCw, BitVec.getLsbD_append]
  rcases Nat.lt_or_ge k 31 with hk | hk
  · interval_cases k <;> simp
  · split_ifs <;> first | omega | simp

end PackedFields

end Sys2Proof
end

