-- ==== Sys2Proof/Laws/Numbers.lean ====
section
/-!
SUPPORT. The small lemmas of the number format: rounding at its plainest, zero tests, and what a transform over any
number format gives.
-/
namespace Sys2Proof.Machine

/-- The two cases of a transform, over any number format. -/
theorem transform_cases (num : Config.NumFormat) (raw : Word64) (scale offset : num.F) :
    (num.fiszero scale = true ∧ num.fiszero offset = true ∧ transform num raw scale offset = num.u2f raw) ∨
      ((num.fiszero scale = false ∨ num.fiszero offset = false) ∧
        transform num raw scale offset = num.fadd (num.fmul (num.u2f raw) scale) offset) := by
  cases hs : num.fiszero scale <;> cases ho : num.fiszero offset <;> simp [transform, hs, ho]

@[simp] theorem binary64IsZero_nan : binary64IsZero .nan = false := rfl
@[simp] theorem binary64IsZero_inf (b : Bool) : binary64IsZero (.inf b) = false := rfl
@[simp] theorem binary64IsZero_fin (b : Bool) (m : Nat) : binary64IsZero (.fin b m) = decide (m = 0) := rfl

theorem twoPow_eq (k : Nat) : twoPow k = 2 ^ k := by unfold twoPow; rfl

theorem unitsPerOne_eq : unitsPerOne = twoPow 1074 := by unfold unitsPerOne; rfl

theorem overflowMag_eq : overflowMag = twoPow 2098 := by unfold overflowMag; rfl

theorem twoPow_add (j k : Nat) : twoPow (j + k) = twoPow j * twoPow k := by
  simp only [twoPow_eq, pow_add]

theorem twoPow_lt {j k : Nat} (h : j < k) : twoPow j < twoPow k := by
  rw [twoPow_eq, twoPow_eq]
  exact Nat.pow_lt_pow_right (by omega) h

theorem twoPow_pos (k : Nat) : 0 < twoPow k := by
  rw [twoPow_eq]
  exact Nat.two_pow_pos k

/-- Every power of two below `2^2098` units is below the overflow bound. -/
theorem two_pow_lt_overflowMag {k : Nat} (h : k < 2098) : 2 ^ k < overflowMag := by
  rw [overflowMag_eq, ← twoPow_eq]
  exact twoPow_lt h

/-- Nothing is dropped from a whole number of units below `2^53`. -/
theorem roundMag_of_lt {n : Nat} (h : n < 2 ^ 53) : roundMag n 0 = n := by
  have hlog : n.log2 < 53 := by
    rcases Nat.eq_zero_or_pos n with rfl | hn
    · simp
    · exact (Nat.log2_lt (by omega)).mpr h
  have hdrop : n.log2 - 52 = 0 := by omega
  simp [roundMag, hdrop, Nat.mod_one]

@[simp] theorem roundMag_zero (t : Nat) : roundMag 0 t = 0 := by
  simp [roundMag]

/-- Rounding gives a finite number below the overflow bound and an infinity from it on. -/
theorem roundFin_cases (neg : Bool) (n t : Nat) :
    (roundMag n t < overflowMag ∧ roundFin neg n t = .fin neg (roundMag n t)) ∨
      (overflowMag ≤ roundMag n t ∧ roundFin neg n t = .inf neg) := by
  unfold roundFin
  split
  · exact .inl ⟨‹_›, rfl⟩
  · exact .inr ⟨by omega, rfl⟩

@[simp] theorem binary64ToWord_nan (w : Word64) : binary64ToWord w .nan = w := rfl
@[simp] theorem binary64ToWord_inf (w : Word64) (neg : Bool) :
    binary64ToWord w (.inf neg) = binary64Word neg 2047 0 := rfl
@[simp] theorem binary64ToWord_fin (w : Word64) (neg : Bool) (mag : Nat) :
    binary64ToWord w (.fin neg mag) =
      binary64Word neg (exponentField mag) (mag / 2 ^ (exponentField mag - 1)) := rfl

/-- `PHYS` with the number format's operations written out. -/
theorem physWord_eq (nan raw scale offset : Word64) : physWord nan raw scale offset =
    binary64ToWord nan
      (if binary64IsZero (binary64OfWord scale) && binary64IsZero (binary64OfWord offset) then
        binary64OfUnsigned raw
      else binary64Add (binary64Mul (binary64OfUnsigned raw) (binary64OfWord scale)) (binary64OfWord offset)) := rfl

/-- A packed word as a number: sign, exponent and fraction side by side. -/
theorem binary64Word_toNat {e fr : Nat} (neg : Bool) (he : e < 2 ^ 11) (hf : fr < 2 ^ 52) :
    (binary64Word neg e fr).toNat = neg.toNat * 2 ^ 63 + e * 2 ^ 52 + fr := by
  have h1 : (BitVec.ofNat 11 e).toNat = e := by simp; omega
  have h2 : (BitVec.ofNat 52 fr).toNat = fr := by simp; omega
  rw [binary64Word, BitVec.toNat_append, BitVec.toNat_append, h1, h2, BitVec.toNat_ofBool,
    ← Nat.shiftLeft_add_eq_or_of_lt he, ← Nat.shiftLeft_add_eq_or_of_lt hf, Nat.shiftLeft_eq, Nat.shiftLeft_eq]
  ring

@[simp] theorem binary64Mul_nan_left (b : Binary64) : binary64Mul .nan b = .nan := by cases b <;> rfl
@[simp] theorem binary64Mul_nan_right (a : Binary64) : binary64Mul a .nan = .nan := by cases a <;> rfl
@[simp] theorem binary64Add_nan_left (b : Binary64) : binary64Add .nan b = .nan := by cases b <;> rfl
@[simp] theorem binary64Add_nan_right (a : Binary64) : binary64Add a .nan = .nan := by cases a <;> rfl

end Sys2Proof.Machine
end

