-- ==== Sys2Proof/Laws/PerInstr.lean ====
section
/-!
SUPPORT. Facts about every operation as syntax, one lemma for each constructor of `Instr`.

EncodeMatchesTable: the fixed bits of an operation's control word (mask `0x800000FF`) are its row's `match` value in
spec/opcode_table.json.
-/
namespace Sys2Proof

/-- The `match` value of an operation's row (30_encoding.md R52). -/
def tableMatch : Instr → Word32
  | .b2bMsb _ _ => 0x00000001
  | .b2bLsb _ _ => 0x00000011
  | .extMsb _ _ _ _ => 0x00000002
  | .extLsb _ _ _ _ => 0x00000012
  | .xbsMsb _ _ _ _ => 0x00000003
  | .xform _ _ _ => 0x00000004
  | .decMsb _ _ _ _ _ _ => 0x00000005
  | .decLsb _ _ _ _ _ _ => 0x00000015

/-- Masking a packed control word keeps its order bit and operation code. -/
theorem packCw_and_mask (len : BitVec 7) (start bits : BitVec 8) (ord : BitVec 1) (op : BitVec 4) :
    packCw len start bits ord op &&& 0x800000FF = packCw 0 0 0 ord op := by
  refine BitVec.eq_of_getLsbD_eq fun k hk => ?_
  rw [BitVec.getLsbD_and, packCw_getLsbD, packCw_getLsbD]
  interval_cases k <;> simp

end Sys2Proof

namespace Sys2Proof.Laws

/-- An operation's control word has its row's fixed bits. -/
def EncodeMatchesTable.Statement (i : Instr) : Prop := (encode i).cw &&& 0x800000FF = tableMatch i

theorem EncodeMatchesTable.b2bMsb (len : BitVec 7) (data : Word64) :
    EncodeMatchesTable.Statement (.b2bMsb len data) :=
  (packCw_and_mask _ _ _ _ _).trans rfl

theorem EncodeMatchesTable.b2bLsb (len : BitVec 7) (data : Word64) :
    EncodeMatchesTable.Statement (.b2bLsb len data) :=
  (packCw_and_mask _ _ _ _ _).trans rfl

theorem EncodeMatchesTable.extMsb (len : BitVec 7) (data : Word64) (startBit bitLength : BitVec 8) :
    EncodeMatchesTable.Statement (.extMsb len data startBit bitLength) :=
  (packCw_and_mask _ _ _ _ _).trans rfl

theorem EncodeMatchesTable.extLsb (len : BitVec 7) (data : Word64) (startBit bitLength : BitVec 8) :
    EncodeMatchesTable.Statement (.extLsb len data startBit bitLength) :=
  (packCw_and_mask _ _ _ _ _).trans rfl

theorem EncodeMatchesTable.xbsMsb (len : BitVec 7) (data : Word64) (startBit bitLength : BitVec 8) :
    EncodeMatchesTable.Statement (.xbsMsb len data startBit bitLength) :=
  (packCw_and_mask _ _ _ _ _).trans rfl

theorem EncodeMatchesTable.xform (data scale offset : Word64) :
    EncodeMatchesTable.Statement (.xform data scale offset) :=
  (packCw_and_mask _ _ _ _ _).trans rfl

theorem EncodeMatchesTable.decMsb (len : BitVec 7) (data : Word64) (startBit bitLength : BitVec 8)
    (scale offset : Word64) : EncodeMatchesTable.Statement (.decMsb len data startBit bitLength scale offset) :=
  (packCw_and_mask _ _ _ _ _).trans rfl

theorem EncodeMatchesTable.decLsb (len : BitVec 7) (data : Word64) (startBit bitLength : BitVec 8)
    (scale offset : Word64) : EncodeMatchesTable.Statement (.decLsb len data startBit bitLength scale offset) :=
  (packCw_and_mask _ _ _ _ _).trans rfl

end Sys2Proof.Laws
end

