-- ==== Sys2Proof/Tests/Slice0.lean ====
section
/-!
SUPPORT. Tests: ill-formed operations are refused, words written out from the spec's encodings decode to the
operations they stand for, single steps give the responses of 95_test_vectors.md, and for each statement with
hypotheses a witness that meets them.
-/
namespace Sys2Proof.Tests

open Sys2Proof.Machine

/-! ## Ill-formed operations -/

theorem test_b2bMsb_of_nine_bytes_illFormed : Instr.wf (.b2bMsb 9 0) = false := by decide
theorem test_b2bLsb_of_nine_bytes_illFormed : Instr.wf (.b2bLsb 9 0) = false := by decide
theorem test_extMsb_of_nine_bytes_illFormed : Instr.wf (.extMsb 9 0 7 8) = false := by decide
theorem test_extLsb_of_nine_bytes_illFormed : Instr.wf (.extLsb 9 0 0 8) = false := by decide
theorem test_xbsMsb_of_sixtyFive_bits_illFormed : Instr.wf (.xbsMsb 65 0 0 1) = false := by decide
theorem test_decMsb_of_nine_bytes_illFormed : Instr.wf (.decMsb 9 0 7 8 0 0) = false := by decide
theorem test_decLsb_of_nine_bytes_illFormed : Instr.wf (.decLsb 9 0 0 8 0 0) = false := by decide

/-- Operations at the longest legal lengths pass. -/
theorem test_longest_operations_wellFormed :
    Instr.wf (.b2bMsb 8 0) = true ∧ Instr.wf (.xbsMsb 64 0 0 1) = true ∧ Instr.wf (.xform 0 0 0) = true := by decide

/-! ## Decoding

Each control word is written out field by field from 30_encoding.md R51:
`RSV1(1) LEN(7) START_BIT(8) BIT_LENGTH(8) RSV0(3) ORD(1) OP(4)`. -/

theorem test_decode_b2bMsb :
    decode ⟨0b0_0000010_00000000_00000000_000_0_0001#32, 0x3412, 0, 0⟩ = .ok (.b2bMsb 2 0x3412) := by rfl
theorem test_decode_b2bLsb :
    decode ⟨0b0_0001000_00000000_00000000_000_1_0001#32, 0xEF, 0, 0⟩ = .ok (.b2bLsb 8 0xEF) := by rfl
theorem test_decode_extMsb :
    decode ⟨0b0_0000010_00001011_00001000_000_0_0010#32, 0x3412, 0, 0⟩ = .ok (.extMsb 2 0x3412 11 8) := by rfl
theorem test_decode_extLsb :
    decode ⟨0b0_0000010_11111111_00000001_000_1_0010#32, 0x3412, 0, 0⟩ = .ok (.extLsb 2 0x3412 255 1) := by rfl
theorem test_decode_xbsMsb :
    decode ⟨0b0_1000000_00111111_01000000_000_0_0011#32, 5, 0, 0⟩ = .ok (.xbsMsb 64 5 63 64) := by rfl
theorem test_decode_xform :
    decode ⟨0b0_1111111_11111111_11111111_000_0_0100#32, 18, 2, 3⟩ = .ok (.xform 18 2 3) := by rfl
theorem test_decode_decMsb :
    decode ⟨0b0_0000010_00000111_00001000_000_0_0101#32, 0x3412, 2, 3⟩ = .ok (.decMsb 2 0x3412 7 8 2 3) := by rfl
theorem test_decode_decLsb :
    decode ⟨0b0_0000010_00000100_00001000_000_1_0101#32, 0x3412, 2, 3⟩ = .ok (.decLsb 2 0x3412 4 8 2 3) := by rfl

/-- The 224 bits of a command in the numbering of the opcode table: `CW`, `DATA`, `SCALE`, `OFFSET` from bit 0 up. -/
theorem test_decodeTableWord_decLsb :
    decodeTableWord 224 (0x02040815 + 0x3412 * 2 ^ 32 + 2 * 2 ^ 96 + 3 * 2 ^ 160) =
      some (.decLsb 2 0x3412 4 8 2 3) := by rfl

/-- 95_test_vectors.md section 2.7, one word for each condition of 30_encoding.md R57. -/
theorem test_decode_rejects :
    decode ⟨0x02000832, 0, 0, 0⟩ = .error .reservedBits ∧ decode ⟨0x82000812, 0, 0, 0⟩ = .error .reservedBits ∧
    decode ⟨0x00000000, 0, 0, 0⟩ = .error .reservedOperation ∧
    decode ⟨0x02000806, 0, 0, 0⟩ = .error .reservedOperation ∧
    decode ⟨0x0200081F, 0, 0, 0⟩ = .error .reservedOperation ∧
    decode ⟨0x100B0813, 0, 0, 0⟩ = .error .noLsbForm ∧ decode ⟨0x00000014, 0, 0, 0⟩ = .error .noLsbForm ∧
    decode ⟨0x09000812, 0, 0, 0⟩ = .error .lengthOutOfRange ∧
    decode ⟨0x41000103, 0, 0, 0⟩ = .error .lengthOutOfRange := ⟨rfl, rfl, rfl, rfl, rfl, rfl, rfl, rfl, rfl⟩

/-! ## Single steps, the vectors of 95_test_vectors.md -/

/-- The unit with the commands given waiting. -/
def waiting (cs : List Command) : State := { pending := cs, responses := [], nanDraws := 0 }

/-- The response to one command. -/
def responseTo (cw : Word32) (data scale offset : Word64) : Option Response :=
  match step (waiting [⟨cw, data, scale, offset⟩]) with
  | .next t => t.responses.head?
  | .fault _ => none
  | .refused _ => none

/-- The response that carries a bit string. -/
def codecAnswer (len : BitVec 7) (v : Word64) : Option Response :=
  some { status := .ok, bitsLen := some len, bits := some v }

/-- The response that carries a field. -/
def fieldAnswer (len : BitVec 7) (v : Word64) : Option Response :=
  some { status := .ok, raw := some v, litLen := some len, lit := some v }

/-- The response that carries a field and its physical value. -/
def decodedAnswer (len : BitVec 7) (v p : Word64) : Option Response :=
  some { status := .ok, raw := some v, litLen := some len, lit := some v, phys := some p }

/-- The response that carries a physical value. -/
def physAnswer (p : Word64) : Option Response := some { status := .ok, phys := some p }

/-- Section 2.1, `12 34` and `12` with junk above. -/
theorem test_b2bMsb : responseTo 0x02000001 0x3412 0 0 = codecAnswer 16 0x1234 ∧
    responseTo 0x01000001 0xFFFFFFFFFFFFFF12 0 0 = codecAnswer 8 0x12 := by decide

/-- Section 2.1, `12 34` and the whole of `F8`. -/
theorem test_b2bLsb : responseTo 0x02000011 0x3412 0 0 = codecAnswer 16 0x3412 ∧
    responseTo 0x08000011 0xEFCDAB8967452301 0 0 = codecAnswer 64 0xEFCDAB8967452301 := by decide +kernel

/-- Section 2.2: a field across a byte boundary, and the frame's last bits. -/
theorem test_extLsb : responseTo 0x02040812 0x3412 0 0 = fieldAnswer 8 0x41 ∧
    responseTo 0x02080812 0x3412 0 0 = fieldAnswer 8 0x34 := by decide +kernel

/-- Section 2.2: one position past the frame. -/
theorem test_extLsb_past_end : responseTo 0x02090812 0x3412 0 0 = some { status := .rangeError } ∧
    responseTo 0x01080112 0xFFFFFFFFFFFFFF12 0 0 = some { status := .rangeError } := by decide +kernel

/-- Section 2.3: the backward walk across a byte boundary, and the only legal 64-bit field. -/
theorem test_extMsb : responseTo 0x020B0802 0x3412 0 0 = fieldAnswer 8 0xC4 ∧
    responseTo 0x083F4002 0xEFCDAB8967452301 0 0 = fieldAnswer 64 0xF7B3D591E6A2C480 := by decide +kernel

/-- Section 2.3: both ends of the span. -/
theorem test_extMsb_out_of_range : responseTo 0x02070902 0x3412 0 0 = some { status := .rangeError } ∧
    responseTo 0x02100802 0x3412 0 0 = some { status := .rangeError } := by decide +kernel

/-- Section 2.4: strings of 16 and of 5 characters. -/
theorem test_xbsMsb : responseTo 0x100B0803 0x1234 0 0 = fieldAnswer 8 0xC4 ∧
    responseTo 0x05040503 0x16 0 0 = fieldAnswer 5 0xD := by decide +kernel

/-- Section 2.4: both ends of the span. -/
theorem test_xbsMsb_out_of_range : responseTo 0x05020403 0x16 0 0 = some { status := .rangeError } ∧
    responseTo 0x05050103 0x16 0 0 = some { status := .rangeError } := by decide +kernel

/-- Section 2.5: the formula, the identity case, and two roundings (a fused multiply-add would end in `...99`). -/
theorem test_xform :
    responseTo 4 18 0x4000000000000000 0x3FF0000000000000 = physAnswer 0x4042800000000000 ∧
    responseTo 4 18 0x8000000000000000 0 = physAnswer 0x4032000000000000 ∧
    responseTo 4 18 0x3FB999999999999A 0 = physAnswer 0x3FFCCCCCCCCCCCCD ∧
    responseTo 4 3 0x3FB999999999999A 0xBFE0000000000000 = physAnswer 0xBFC9999999999998 := by decide +kernel

/-- Section 2.5: `2^53 + 1` rounds, the overflow, and `0 * infinity`. -/
theorem test_xform_at_the_edges :
    responseTo 4 0x0020000000000001 0 0 = physAnswer 0x4340000000000000 ∧
    responseTo 4 0xFFFFFFFFFFFFFFFF 0x7BF0000000000000 0 = physAnswer 0x7FF0000000000000 ∧
    binary64Mul (binary64OfUnsigned 0) (binary64OfWord 0x7FF0000000000000) = .nan := by decide +kernel

/-- Section 2.6. -/
theorem test_decMsb :
    responseTo 0x081F1405 0xEFCDAB8967452301 0x3FD0000000000000 0 = decodedAnswer 20 0xE6A2C 0x410CD45800000000 ∧
    responseTo 0x02040805 0x00FF 0x4000000000000000 0x3FF0000000000000 = some { status := .rangeError } := by
  decide +kernel

/-- Section 2.6. -/
theorem test_decLsb :
    responseTo 0x080C1415 0xEFCDAB8967452301 0x3FE0000000000000 0xC044000000000000 =
      decodedAnswer 20 0x67452 0x4109D00800000000 ∧
    responseTo 0x02090815 0x3412 0x7FF8000000000000 0 = some { status := .rangeError } := by
  decide +kernel

/-- Section 2.7: a decode error wins over `RangeError`. -/
theorem test_illegal_command : responseTo 0x09000012 0x3412 0 0 = some { status := .illegalCommand } ∧
    responseTo 0x02000032 0x3412 0 0 = some { status := .illegalCommand } := by decide

/-- The host's issue of a command: the next step answers it. -/
theorem test_withFetchWord :
    step (State.reset.withFetchWord 224 (0x02000001 + 0x3412 * 2 ^ 32)) =
      .next { State.reset with responses := [{ status := .ok, bitsLen := some 16, bits := some 0x1234 }] } := by rfl

/-! ## Witnesses: the hypotheses of the statements can be met -/

/-- `EXT.LSB`, `len=2, data=12 34, start=4, bits=8`. -/
def sampleCommand : Command := ⟨0x02040812, 0x3412, 0, 0⟩

theorem witness_StepRunsDecodedOperation :
    (waiting [sampleCommand]).pending = sampleCommand :: [] ∧
      decode sampleCommand = .ok (.extLsb 2 0x3412 4 8) := ⟨rfl, rfl⟩

theorem witness_IdleUnitStaysAsItIs : (waiting []).pending = [] := rfl

theorem witness_EveryCommandGetsOneResponse :
    (waiting [sampleCommand, ⟨0, 0, 0, 0⟩]).pending = sampleCommand :: [⟨0, 0, 0, 0⟩] := rfl

/-- One command for each of the five conditions, at the lengths next to the legal ones, and a legal command. -/
theorem witness_IllegalCommandsExactlyTheReserved :
    (waiting [⟨0, 0, 0, 0⟩]).pending = [⟨0, 0, 0, 0⟩] ∧
    IllegalCommand ⟨0x02000832, 0, 0, 0⟩ ∧ IllegalCommand ⟨0x82000812, 0, 0, 0⟩ ∧ IllegalCommand ⟨0, 0, 0, 0⟩ ∧
    IllegalCommand ⟨0x00000006, 0, 0, 0⟩ ∧ IllegalCommand ⟨0x100B0813, 0, 0, 0⟩ ∧
    IllegalCommand ⟨0x00000014, 0, 0, 0⟩ ∧ IllegalCommand ⟨0x09000812, 0, 0, 0⟩ ∧
    IllegalCommand ⟨0x41000103, 0, 0, 0⟩ ∧
    ¬ IllegalCommand ⟨0x08000001, 0, 0, 0⟩ ∧ ¬ IllegalCommand ⟨0x40000103, 0, 0, 0⟩ := by
  refine ⟨rfl, ?_, ?_, ?_, ?_, ?_, ?_, ?_, ?_, ?_, ?_⟩ <;> unfold IllegalCommand <;> decide

/-- An illegal command with `bitLength = 0` as well, each cause of `RangeError` one past its bound, and a legal
command on it. -/
theorem witness_StatusFollowsErrorPriority :
    IllegalCommand ⟨0x09000012, 0, 0, 0⟩ ∧
    ¬ IllegalCommand ⟨0x02090812, 0, 0, 0⟩ ∧ RangeErrorCause ⟨0x02090812, 0, 0, 0⟩ ∧
    RangeErrorCause ⟨0x02000012, 0, 0, 0⟩ ∧ RangeErrorCause ⟨0x02004112, 0, 0, 0⟩ ∧
    RangeErrorCause ⟨0x02070902, 0, 0, 0⟩ ∧ RangeErrorCause ⟨0x02100102, 0, 0, 0⟩ ∧
    RangeErrorCause ⟨0x05050103, 0, 0, 0⟩ ∧ RangeErrorCause ⟨0x05020403, 0, 0, 0⟩ ∧
    ¬ IllegalCommand ⟨0x02080812, 0, 0, 0⟩ ∧ ¬ RangeErrorCause ⟨0x02080812, 0, 0, 0⟩ := by
  refine ⟨?_, ?_, ?_, ?_, ?_, ?_, ?_, ?_, ?_, ?_, ?_⟩ <;>
    first | unfold IllegalCommand; decide | unfold RangeErrorCause; decide

/-- Both error statuses occur. -/
theorem witness_ErrorChangesNothingButItsResponse :
    responseTo 0x02090812 0x3412 0 0 = some { status := .rangeError } ∧
    responseTo 0x09000812 0x3412 0 0 = some { status := .illegalCommand } := by decide +kernel

/-- A state that holds a response and the step that adds another. -/
theorem witness_StepKeepsResponsesLegal :
    State.Legal { waiting [⟨0, 0, 0, 0⟩] with responses := [{ status := .rangeError }] } ∧
    step { waiting [⟨0, 0, 0, 0⟩] with responses := [{ status := .rangeError }] } =
      .next { waiting [] with responses := [{ status := .rangeError }, { status := .illegalCommand }] } := by
  refine ⟨?_, rfl⟩
  intro r hr
  rw [List.mem_singleton.mp hr]
  rfl

/-- The same operation with status `OK` and with `RANGE_ERROR`, and a command that names none. -/
theorem witness_ResponseFieldsFollowTheOperation :
    exec (.extLsb 2 0x3412 8 8) (waiting []) = .next { waiting [] with
      responses := [{ status := .ok, raw := some 0x34, litLen := some 8, lit := some 0x34 }] } ∧
    exec (.extLsb 2 0x3412 9 8) (waiting []) =
      .next { waiting [] with responses := [{ status := .rangeError }] } ∧
    (waiting [⟨0, 0, 0, 0⟩]).pending = ⟨0, 0, 0, 0⟩ :: [] ∧ decode ⟨0, 0, 0, 0⟩ = .error .reservedOperation :=
  ⟨rfl, rfl, rfl, rfl⟩

/-- Two states that share neither responses, counter nor later commands, whose oldest commands differ in a field not
read; and a transform, whose answer may be a NaN, at the second. -/
theorem witness_ResponseDependsOnItsCommandAlone :
    { waiting [sampleCommand] with responses := [{ status := .rangeError }], nanDraws := 7 }.pending =
      sampleCommand :: [] ∧
    (waiting [⟨0x02040812, 0x3412, 5, 6⟩, sampleCommand]).pending = ⟨0x02040812, 0x3412, 5, 6⟩ :: [sampleCommand] ∧
    AgreeOnReadFields sampleCommand ⟨0x02040812, 0x3412, 5, 6⟩ ∧
    AgreeOnReadFields ⟨0x00000004, 0, 0x7FF0000000000000, 3⟩ ⟨0x7FFFFF04, 0, 0x7FF0000000000000, 3⟩ := by
  refine ⟨rfl, rfl, ?_, ?_⟩ <;> unfold AgreeOnReadFields <;> decide

theorem witness_RunAnswersCommandsInOrder :
    (waiting [⟨0, 0, 0, 0⟩, sampleCommand]).pending[1]? = some sampleCommand := rfl

/-- `XFORM`, `B2B.MSB` and `EXT.LSB`, differing in every field they do not read. -/
theorem witness_UnreadFieldsAreIgnored :
    AgreeOnReadFields ⟨0x00000004, 18, 2, 3⟩ ⟨0x7FFFFF04, 18, 2, 3⟩ ∧
    AgreeOnReadFields ⟨0x02000001, 0x3412, 0, 0⟩ ⟨0x02FFFF01, 0x3412, 5, 6⟩ ∧
    AgreeOnReadFields ⟨0x02040812, 0x3412, 0, 0⟩ ⟨0x02040812, 0x3412, 5, 6⟩ := by
  refine ⟨?_, ?_, ?_⟩ <;> unfold AgreeOnReadFields <;> decide

/-- One operation for each constructor, at the longest length. -/
theorem witness_DecodeEncodeRoundTrip :
    Instr.WellFormed (.b2bMsb 8 1) ∧ Instr.WellFormed (.b2bLsb 8 1) ∧ Instr.WellFormed (.extMsb 8 1 255 255) ∧
    Instr.WellFormed (.extLsb 8 1 255 255) ∧ Instr.WellFormed (.xbsMsb 64 1 255 255) ∧
    Instr.WellFormed (.xform 1 2 3) ∧ Instr.WellFormed (.decMsb 8 1 255 255 2 3) ∧
    Instr.WellFormed (.decLsb 8 1 255 255 2 3) := by decide

/-- For each row of the table a control word at the longest length. -/
theorem witness_TableMatchSelectsOperation :
    (0x08000001#32 &&& 0x800000FF#32 = 0x00000001#32 ∧ (0x08000001#32).extractLsb' 24 7 = 8#7) ∧
    (0x08000011#32 &&& 0x800000FF#32 = 0x00000011#32 ∧ (0x08000011#32).extractLsb' 24 7 = 8#7) ∧
    (0x08FFFF02#32 &&& 0x800000FF#32 = 0x00000002#32 ∧ (0x08FFFF02#32).extractLsb' 24 7 = 8#7) ∧
    (0x08FFFF12#32 &&& 0x800000FF#32 = 0x00000012#32 ∧ (0x08FFFF12#32).extractLsb' 24 7 = 8#7) ∧
    (0x40FFFF03#32 &&& 0x800000FF#32 = 0x00000003#32 ∧ (0x40FFFF03#32).extractLsb' 24 7 = 64#7) ∧
    0x7FFFFF04#32 &&& 0x800000FF#32 = 0x00000004#32 ∧
    (0x08FFFF05#32 &&& 0x800000FF#32 = 0x00000005#32 ∧ (0x08FFFF05#32).extractLsb' 24 7 = 8#7) ∧
    (0x08FFFF15#32 &&& 0x800000FF#32 = 0x00000015#32 ∧ (0x08FFFF15#32).extractLsb' 24 7 = 8#7) := by decide

/-- Byte 7 of an 8-byte frame, and two words that differ just above a 2-byte frame. -/
theorem witness_FrameBytesOnDataPort :
    7 < (8#7).toNat ∧
    (0x13412#64).toNat % 2 ^ (8 * (2#7).toNat) = (0x3412#64).toNat % 2 ^ (8 * (2#7).toNat) := by decide

/-- The last character of a 64-bit string, two words that differ just above a 5-bit string, and a frame of 8 bytes. -/
theorem witness_StringBitsOnDataPort :
    63 < (64#7).toNat ∧ (0x36#64).toNat % 2 ^ (5#7).toNat = (0x16#64).toNat % 2 ^ (5#7).toNat ∧
    (8#7).toNat ≤ 8 := by decide

/-- The largest value of a 5-character string. -/
theorem witness_BitStringIsLengthAndValue : 31 < 2 ^ 5 := by decide

/-- The last position of `12 34`. -/
theorem witness_MsbPositionIsStringIndex : 15 / 8 < ([0x12, 0x34] : Frame).length := by decide

/-- The last position of `12 34`. -/
theorem witness_LsbPositionCountsFromStringEnd : 15 / 8 < ([0x12, 0x34] : Frame).length := by decide

/-- The last position of `12 34`. -/
theorem witness_FrameBitsAreIntegerBits : 15 < 8 * ([0x12, 0x34] : Frame).length := by decide

/-- The longest frame and its last character. -/
theorem witness_B2bMsbReturnsBytesInOrder : (8#7).toNat ≤ 8 ∧ 63 < 8 * (8#7).toNat := by decide

/-- The longest frame and its last character. -/
theorem witness_B2bLsbReturnsBytesReversed : (8#7).toNat ≤ 8 ∧ 63 < 8 * (8#7).toNat := by decide

theorem witness_CodecReturnsFrameIntegers : (8#7).toNat ≤ 8 := by decide

/-- The longest frame, equal frames, and a string of two bytes. -/
theorem witness_CodecIsBijection :
    (8#7).toNat ≤ 8 ∧ bytesToBits .msb [0x12] = bytesToBits .msb [0x12] ∧
    (List.replicate 16 true : BitString).length = 8 * 2 := ⟨by decide, rfl, by decide⟩

/-- The two lengths next to the legal ones. -/
theorem witness_BitLengthOutsideOneToSixtyFourIsRangeError :
    ((0#8).toNat = 0 ∨ 64 < (0#8).toNat) ∧ ((65#8).toNat = 0 ∨ 64 < (65#8).toNat) := by decide

/-- One bit past the end of `12 34` in LSB mode; past the end and before the start in MSB mode; the same for a string
of 5 characters. -/
theorem witness_SpanOutsideOperandIsRangeError :
    ¬ LsbLegal (8 * (2#7).toNat) (9#8).toNat (8#8).toNat ∧
    ¬ MsbLegal (8 * (2#7).toNat) (16#8).toNat (1#8).toNat ∧ ¬ MsbLegal (8 * (2#7).toNat) (7#8).toNat (9#8).toNat ∧
    ¬ MsbLegal (5#7).toNat (5#8).toNat (1#8).toNat ∧ ¬ MsbLegal (5#7).toNat (2#8).toNat (4#8).toNat := by
  unfold LsbLegal MsbLegal; decide

/-- The field that ends on the last bit of `12 34`, the one-bit field there, and the whole of an 8-byte frame. One bit
further is out of range. -/
theorem witness_ExtLsbReturnsFieldBitsOrRangeError :
    ((2#7).toNat ≤ 8 ∧ LsbLegal (8 * (2#7).toNat) (8#8).toNat (8#8).toNat) ∧
    LsbLegal (8 * (2#7).toNat) (15#8).toNat (1#8).toNat ∧
    ((8#7).toNat ≤ 8 ∧ LsbLegal (8 * (8#7).toNat) (0#8).toNat (64#8).toNat) ∧
    ¬ LsbLegal (8 * (2#7).toNat) (9#8).toNat (8#8).toNat := by
  unfold LsbLegal; decide

/-- The field that starts on the first bit of `12 34`, the one-bit field at the last, and the whole of an 8-byte
frame. One bit further at either end is out of range. -/
theorem witness_ExtMsbReturnsFieldBitsOrRangeError :
    ((2#7).toNat ≤ 8 ∧ MsbLegal (8 * (2#7).toNat) (7#8).toNat (8#8).toNat) ∧
    MsbLegal (8 * (2#7).toNat) (15#8).toNat (1#8).toNat ∧
    ((8#7).toNat ≤ 8 ∧ MsbLegal (8 * (8#7).toNat) (63#8).toNat (64#8).toNat) ∧
    ¬ MsbLegal (8 * (2#7).toNat) (16#8).toNat (1#8).toNat ∧ ¬ MsbLegal (8 * (2#7).toNat) (7#8).toNat (9#8).toNat := by
  unfold MsbLegal; decide

/-- A string of 5 characters as a whole, a string of one, and a string of 64 as a whole.
One bit further at either end is out of range. -/
theorem witness_XbsMsbReturnsFieldBitsOrRangeError :
    ((5#7).toNat ≤ 64 ∧ MsbLegal (5#7).toNat (4#8).toNat (5#8).toNat) ∧
    MsbLegal (1#7).toNat (0#8).toNat (1#8).toNat ∧
    ((64#7).toNat ≤ 64 ∧ MsbLegal (64#7).toNat (63#8).toNat (64#8).toNat) ∧
    ¬ MsbLegal (5#7).toNat (5#8).toNat (1#8).toNat ∧ ¬ MsbLegal (5#7).toNat (2#8).toNat (4#8).toNat := by
  unfold MsbLegal; decide

/-- The field that ends on the last bit of `12 34`. -/
theorem witness_LsbModeIsShiftAndMask : LsbLegal (8 * ([0x12, 0x34] : Frame).length) 8 8 := by
  unfold LsbLegal; decide

/-- The field that starts on the first bit of `12 34`, and the one-bit field at the last. -/
theorem witness_MsbModeIsReversedShiftAndMask :
    MsbLegal (8 * ([0x12, 0x34] : Frame).length) 7 8 ∧ MsbLegal (8 * ([0x12, 0x34] : Frame).length) 15 1 := by
  unfold MsbLegal; decide

/-- A longest frame, and the encoding of the bit-string operation with `ORD = 1`. -/
theorem witness_BitStringPathAgreesWithFramePath :
    (8#7).toNat ≤ 8 ∧ (0x100B0813#32).extractLsb' 0 4 = 3#4 ∧ (0x100B0813#32).extractLsb' 4 1 = 1#1 := by decide

/-- The operations from the empty operand are five. -/
theorem witness_EmptyOperandIsRangeError :
    (Instr.xbsMsb 0 5 0 1) ∈ [Instr.extMsb 0 5 0 1, .extLsb 0 5 0 1, .xbsMsb 0 5 0 1, .decMsb 0 5 0 1 2 3,
      .decLsb 0 5 0 1 2 3] := by decide

/-- An extraction in each of the three ways. -/
theorem witness_RawFitsFieldAndLiteralSpellsIt :
    extractLsb [0x12, 0x34] 8 8 = some { raw := 0x34, literal := str 8 0x34 } ∧
    extractMsb [0x12, 0x34] 7 8 = some { raw := 0x48, literal := str 8 0x48 } ∧
    extractString [true, false, true, true, false] 4 5 = some { raw := 0xD, literal := str 5 0xD } := by decide

/-- Both zeros on both words, and the four ways not to be in the identity case. -/
theorem witness_XformIsIdentityOrLinear :
    ((0#64 = 0#64 ∨ 0#64 = 0x8000000000000000#64) ∧
      (0x8000000000000000#64 = 0#64 ∨ 0x8000000000000000#64 = 0x8000000000000000#64)) ∧
    ¬ ((1#64 = 0#64 ∨ 1#64 = 0x8000000000000000#64) ∧ (0#64 = 0#64 ∨ 0#64 = 0x8000000000000000#64)) := by decide

/-- The default number format at both of its cases. -/
theorem witness_TransformOverAnyNumberFormat :
    (binary64.fiszero (.fin true 0) = true ∧ binary64.fiszero (.fin false 0) = true) ∧
    (binary64.fiszero (.fin false 1) = false ∨ binary64.fiszero (.fin false 0) = false) := by
  exact ⟨⟨rfl, rfl⟩, .inl rfl⟩

/-- `2^53 - 1`, the largest value below which all are exact, and a larger one that is exact too. -/
theorem witness_IdentityTransformIsExact :
    (0x001FFFFFFFFFFFFF#64).toNat < 2 ^ 53 ∧ Representable (0x0020000000000002#64).toNat ∧
    (0x8000000000000000#64 = 0#64 ∨ 0x8000000000000000#64 = 0x8000000000000000#64) :=
  ⟨by decide, ⟨0x0010000000000001, 1, by decide, by decide⟩, .inr rfl⟩

/-- Scale `-0` and the smallest offsets that are no zero, of either sign; an infinite offset. -/
theorem witness_ZeroScaleGivesOffset :
    (0x8000000000000000#64 = 0#64 ∨ 0x8000000000000000#64 = 0x8000000000000000#64) ∧
    isNanWord 1 = false ∧ isNanWord 0x8000000000000001 = false ∧ isNanWord 0x7FF0000000000000 = false := by decide

/-- Offset `-0` and the smallest scale that is no zero. -/
theorem witness_ZeroOffsetGivesProduct :
    (0x8000000000000000#64 = 0#64 ∨ 0x8000000000000000#64 = 0x8000000000000000#64) ∧ 1#64 ≠ 0#64 ∧
    1#64 ≠ 0x8000000000000000#64 := by decide

/-- The magnitude of an unsigned raw value or of a finite word, in units. -/
def unitsOf (v : Binary64) : Nat :=
  match v with
  | .nan => 0
  | .inf _ => 0
  | .fin _ m => m

/-- Each of the five causes: NaN operands, `0` with an infinite scale, infinities of two signs, and the largest raw
value with the largest finite scale, whose product overflows, against the infinity of the other sign. -/
theorem witness_InvalidTransformGivesNan :
    isNanWord 0x7FF0000000000001 = true ∧ isNanWord 0xFFF8000000000000 = true ∧
    (0#64 = 0#64 ∧ (0x7FF0000000000000#64 = 0x7FF0000000000000#64 ∨ 0x7FF0000000000000#64 = 0xFFF0000000000000#64)) ∧
    0x7FF0000000000000#64 ≠ 0xFFF0000000000000#64 ∧
    ∃ neg x m, binary64OfUnsigned 0xFFFFFFFFFFFFFFFF = .fin false x ∧
      binary64OfWord 0x7FEFFFFFFFFFFFFF = .fin neg m ∧ twoPow 2098 ≤ roundMag (x * m) 1074 ∧
      0xFFF0000000000000#64 = infinityWord (!neg) :=
  ⟨by decide, by decide, by decide, by decide,
    false, unitsOf (binary64OfUnsigned 0xFFFFFFFFFFFFFFFF), unitsOf (binary64OfWord 0x7FEFFFFFFFFFFFFF),
    by decide +kernel, by decide +kernel, by decide +kernel, rfl⟩

/-- An infinite scale, raw value 1 and a finite offset; a product that overflows; an infinite offset beside a product
just below the bound, the largest finite number; and that number added to itself, which overflows. -/
theorem witness_OverflowAndInfinitiesGiveInfinity :
    (0xFFF0000000000000#64 = infinityWord true ∧ 1#64 ≠ 0#64 ∧
      ∃ neg m, binary64OfWord 0x3FF0000000000000 = .fin neg m) ∧
    twoPow 2098 ≤
      roundMag (unitsOf (binary64OfUnsigned 2) * unitsOf (binary64OfWord 0x7FEFFFFFFFFFFFFF)) 1074 ∧
    roundMag (unitsOf (binary64OfUnsigned 1) * unitsOf (binary64OfWord 0x7FEFFFFFFFFFFFFF)) 1074 < twoPow 2098 ∧
    twoPow 2098 ≤
      roundMag (roundMag (unitsOf (binary64OfUnsigned 1) * unitsOf (binary64OfWord 0x7FEFFFFFFFFFFFFF)) 1074 +
        unitsOf (binary64OfWord 0x7FEFFFFFFFFFFFFF)) 0 ∧
    binary64OfUnsigned 2 = .fin false (unitsOf (binary64OfUnsigned 2)) ∧
    binary64OfUnsigned 1 = .fin false (unitsOf (binary64OfUnsigned 1)) ∧
    binary64OfWord 0x7FEFFFFFFFFFFFFF = .fin false (unitsOf (binary64OfWord 0x7FEFFFFFFFFFFFFF)) := by
  refine ⟨⟨by decide, by decide, false, unitsOf (binary64OfWord 0x3FF0000000000000), by decide +kernel⟩,
    ?_, ?_, ?_, ?_, ?_, ?_⟩ <;> decide +kernel

/-- A word for each class of exponent at its ends: the largest subnormal number, the smallest and the largest normal
ones, an infinity, the first NaN; and the smallest magnitude. -/
theorem witness_WordsCarryNumbersExactly :
    ((0x000FFFFFFFFFFFFF#64).extractLsb' 52 11).toNat = 0 ∧
    ((0x0010000000000000#64).extractLsb' 52 11).toNat = 1 ∧
    ((0x7FEFFFFFFFFFFFFF#64).extractLsb' 52 11).toNat = 2046 ∧
    (((0x7FF0000000000000#64).extractLsb' 52 11).toNat = 2047 ∧
      ((0x7FF0000000000000#64).extractLsb' 0 52).toNat = 0) ∧
    (((0x7FF0000000000001#64).extractLsb' 52 11).toNat = 2047 ∧
      ((0x7FF0000000000001#64).extractLsb' 0 52).toNat ≠ 0) ∧
    isNanWord 0x7FEFFFFFFFFFFFFF = false ∧ isNanWord 0xFFF0000000000000 = false ∧
    (Representable 1 ∧ 1 < twoPow 2098) := by
  refine ⟨by decide, by decide, by decide, by decide, by decide, by decide, by decide,
    ⟨1, 0, by decide, by decide⟩, by decide +kernel⟩

/-- A tie: `2^53 + 1` lies as near to `2^53 + 2` as to `2^53`, to which it is rounded. And sums that are zero, not zero,
and less than zero. -/
theorem witness_RoundingIsToNearestTiesToEven :
    Representable (2 ^ 53 + 2) ∧ 2 ^ 53 + 2 ≠ roundMag (2 ^ 53 + 1) 0 ∧
    distance (2 ^ 53 + 1) 0 (2 ^ 53 + 2) = distance (2 ^ 53 + 1) 0 (roundMag (2 ^ 53 + 1) 0) ∧
    signedUnits true 3 + signedUnits false 3 = 0 ∧ signedUnits true 0 + signedUnits true 0 = 0 ∧
    signedUnits true 3 + signedUnits false 2 < 0 ∧ signedUnits false 3 + signedUnits false 2 ≠ 0 :=
  ⟨⟨2 ^ 52 + 1, 1, by decide, by decide⟩, by decide +kernel, by decide +kernel, by decide, by decide, by decide,
    by decide⟩

/-- The field that starts on the first bit of `12 34`, and the whole of an 8-byte frame. -/
theorem witness_DecMsbReturnsFieldAndPhysicalValue :
    ((2#7).toNat ≤ 8 ∧ MsbLegal (8 * (2#7).toNat) (7#8).toNat (8#8).toNat) ∧
    ((8#7).toNat ≤ 8 ∧ MsbLegal (8 * (8#7).toNat) (63#8).toNat (64#8).toNat) := by
  unfold MsbLegal; decide

/-- The field that ends on the last bit of `12 34`, and the whole of an 8-byte frame. -/
theorem witness_DecLsbReturnsFieldAndPhysicalValue :
    ((2#7).toNat ≤ 8 ∧ LsbLegal (8 * (2#7).toNat) (8#8).toNat (8#8).toNat) ∧
    ((8#7).toNat ≤ 8 ∧ LsbLegal (8 * (8#7).toNat) (0#8).toNat (64#8).toNat) := by
  unfold LsbLegal; decide

/-- Both cases of the extraction: no raw value, and a raw value. -/
theorem witness_DecodeIsExtractThenTransform :
    (exec (.extLsb 2 0x3412 9 8) (waiting []) = .next { waiting [] with
        responses := [{ status := .rangeError }] }) ∧
    exec (.extMsb 2 0x3412 7 8) (waiting []) = .next { waiting [] with
      responses := [{ status := .ok, raw := some 0x48, litLen := some 8, lit := some 0x48 }] } := ⟨rfl, rfl⟩

end Sys2Proof.Tests
end

section
/-!
SUPPORT. Bit strings as numbers (10_state.md R22, 00_scope.md section 5.1): `val` and `str` undo each other, and a
string of at most 64 characters goes onto the ports without loss.
-/
namespace Sys2Proof.Machine

theorem val_lt (S : BitString) : val S < 2 ^ S.length := by
  induction S with
  | nil => simp
  | cons b S ih =>
    have top : b.toNat * 2 ^ S.length ≤ 1 * 2 ^ S.length := Nat.mul_le_mul_right _ (Bool.toNat_le b)
    rw [val_cons, List.length_cons, pow_succ]
    omega

@[simp] theorem str_zero (v : Nat) : str 0 v = [] := rfl

/-- The first character is the topmost bit; the rest is the shorter string of the same number. -/
theorem str_succ (L v : Nat) : str (L + 1) v = v.testBit L :: str L v := by
  simp only [str, List.range_succ_eq_map, List.map_cons, List.map_map, List.cons.injEq]
  refine ⟨by simp, List.map_congr_left fun j _ => congrArg v.testBit ?_⟩
  omega

/-- `str` reads the low `L` bits only. -/
theorem str_congr {L v w : Nat} (h : ∀ k < L, v.testBit k = w.testBit k) : str L v = str L w :=
  List.map_congr_left fun j hj => h _ (by have := List.mem_range.mp hj; omega)

theorem val_str (L v : Nat) : val (str L v) = v % 2 ^ L := by
  induction L with
  | zero => simp [Nat.mod_one]
  | succ L ih => rw [str_succ, val_cons, str_length, ih, Nat.mod_pow_succ, Nat.toNat_testBit]; ring

theorem val_str_of_lt {L v : Nat} (h : v < 2 ^ L) : val (str L v) = v := by
  rw [val_str, Nat.mod_eq_of_lt h]

theorem str_val (S : BitString) : str S.length (val S) = S := by
  induction S with
  | nil => rfl
  | cons b S ih =>
    have bit (k : Nat) : (val (b :: S)).testBit k =
        if k < S.length then (val S).testBit k else b.toNat.testBit (k - S.length) := by
      rw [val_cons, Nat.mul_comm]
      exact Nat.testBit_two_pow_mul_add b.toNat (val_lt S) k
    have head : (val (b :: S)).testBit S.length = b := by cases b <;> simp [bit]
    have tail : str S.length (val (b :: S)) = str S.length (val S) :=
      str_congr fun k hk => by rw [bit, if_pos hk]
    rw [List.length_cons, str_succ, head, tail, ih]

/-- A string the ports can carry is carried whole (10_state.md R22). -/
theorem stringFields_toNat {S : BitString} (h : S.length ≤ 64) :
    (stringFields S).1.toNat = S.length ∧ (stringFields S).2.toNat = val S := by
  have value : val S < 2 ^ 64 := (val_lt S).trans_le (Nat.pow_le_pow_right (by omega) h)
  constructor
  · exact Nat.mod_eq_of_lt (by omega)
  · exact Nat.mod_eq_of_lt value

theorem carriesString_stringFields {S : BitString} (h : S.length ≤ 64) :
    CarriesString (some (stringFields S).1) (some (stringFields S).2) := by
  obtain ⟨len, value⟩ := stringFields_toNat h
  exact ⟨_, _, rfl, rfl, by omega, by rw [len, value]; exact val_lt S⟩

@[simp] theorem bytesToBits_length (order : ByteOrder) (f : Frame) :
    (bytesToBits order f).length = 8 * f.length := by
  cases order <;> simp [bytesToBits, List.length_flatMap, Nat.mul_comm]

end Sys2Proof.Machine
end

section
/-!
SUPPORT. What an extraction returns: a raw value of `L` bits, and its rendering in `L` characters
(41_field_extractor.md R85).
-/
namespace Sys2Proof.Machine

/-- The loop's result has no bit at or above the bound of its weights. -/
theorem gather_lt {L n : Nat} {source : Nat → Bool} {weight : Nat → Nat} (h : ∀ i < L, weight i < n) :
    gather L source weight < 2 ^ n := by
  refine Nat.lt_pow_two_of_testBit _ fun k hk => Bool.eq_false_iff.mpr fun hbit => ?_
  obtain ⟨i, hi, rfl, -⟩ := (testBit_gather L k source weight).mp hbit
  exact absurd (h i hi) (by omega)

theorem rawLsb_lt (f : Frame) (s L : Nat) : rawLsb f s L < 2 ^ L := gather_lt fun _ h => h

theorem rawMsb_lt (f : Frame) (s L : Nat) : rawMsb f s L < 2 ^ L := gather_lt fun _ _ => by omega

theorem rawString_lt (S : BitString) (s L : Nat) : rawString S s L < 2 ^ L := gather_lt fun _ _ => by omega

/-- The literal fits the port and spells the raw value (41_field_extractor.md R85). -/
def Extracted.LiteralSpellsRaw (e : Extracted) : Prop := e.literal.length ≤ 64 ∧ val e.literal = e.raw

theorem extractedOf_literalSpellsRaw {L raw : Nat} (hL : L ≤ 64) (h : raw < 2 ^ L) :
    (extractedOf L raw).LiteralSpellsRaw :=
  ⟨by simpa using hL, val_str_of_lt h⟩

theorem extractLsb_literalSpellsRaw {f : Frame} {s L : Nat} {e : Extracted} (h : extractLsb f s L = some e) :
    e.LiteralSpellsRaw := by
  obtain ⟨⟨-, hL⟩, -, rfl⟩ := extractLsb_eq_some.mp h
  exact extractedOf_literalSpellsRaw hL (rawLsb_lt f s L)

theorem extractMsb_literalSpellsRaw {f : Frame} {s L : Nat} {e : Extracted} (h : extractMsb f s L = some e) :
    e.LiteralSpellsRaw := by
  obtain ⟨⟨-, hL⟩, -, rfl⟩ := extractMsb_eq_some.mp h
  exact extractedOf_literalSpellsRaw hL (rawMsb_lt f s L)

theorem extractString_literalSpellsRaw {S : BitString} {s L : Nat} {e : Extracted}
    (h : extractString S s L = some e) : e.LiteralSpellsRaw := by
  obtain ⟨⟨-, hL⟩, -, rfl⟩ := extractString_eq_some.mp h
  exact extractedOf_literalSpellsRaw hL (rawString_lt S s L)

end Sys2Proof.Machine
end

section
/-!
SUPPORT. The words that carry a NaN (42_value_transformer.md R105): every drawn word is one, and `PHYS` depends on the
drawn word only where the result is a NaN.
-/
namespace Sys2Proof.Machine

theorem binary64Word_exponent (neg : Bool) {e fr : Nat} (he : e < 2 ^ 11) (hf : fr < 2 ^ 52) :
    (binary64Word neg e fr).extractLsb' 52 11 = BitVec.ofNat 11 e := by
  apply BitVec.eq_of_toNat_eq
  rw [BitVec.extractLsb'_toNat, binary64Word_toNat neg he hf, BitVec.toNat_ofNat, Nat.shiftRight_eq_div_pow]
  omega

theorem binary64Word_fraction (neg : Bool) {e fr : Nat} (he : e < 2 ^ 11) (hf : fr < 2 ^ 52) :
    (binary64Word neg e fr).extractLsb' 0 52 = BitVec.ofNat 52 fr := by
  apply BitVec.eq_of_toNat_eq
  rw [BitVec.extractLsb'_toNat, binary64Word_toNat neg he hf, BitVec.toNat_ofNat, Nat.shiftRight_eq_div_pow]
  omega

theorem isNanWord_binary64Word (neg : Bool) {fr : Nat} (hpos : 0 < fr) (hf : fr < 2 ^ 52) :
    isNanWord (binary64Word neg 2047 fr) = true := by
  have fraction : BitVec.ofNat 52 fr ≠ 0#52 := fun h => by
    have := congrArg BitVec.toNat h
    rw [BitVec.toNat_ofNat, Nat.mod_eq_of_lt hf] at this
    exact hpos.ne' this
  simp [isNanWord, binary64Word_exponent neg (by omega : 2047 < 2 ^ 11) hf, binary64Word_fraction neg (by omega : 2047 < 2 ^ 11) hf,
    fraction]

/-- The fraction drawn is one to `2^52 - 1`, so the word drawn is a NaN whatever the draw. -/
theorem isNanWord_nanWord (i : Instr) (s : State) : isNanWord (nanWord i s) = true :=
  isNanWord_binary64Word _ (Nat.succ_pos _) (by have := (Config.nanFraction (i, s)).isLt; omega)

theorem binary64ToWord_sameWordButNan {nan nan' : Word64} (h : isNanWord nan = true) (h' : isNanWord nan' = true)
    (v : Binary64) : SameWordButNan (binary64ToWord nan v) (binary64ToWord nan' v) := by
  cases v with
  | nan => exact .inr ⟨h, h'⟩
  | inf neg => exact .inl rfl
  | fin neg mag => exact .inl rfl

theorem physWord_sameWordButNan {nan nan' : Word64} (h : isNanWord nan = true) (h' : isNanWord nan' = true)
    (raw scale offset : Word64) :
    SameWordButNan (physWord nan raw scale offset) (physWord nan' raw scale offset) :=
  binary64ToWord_sameWordButNan h h' _

/-- One response completed by two words of `PHYS` that differ at most as NaNs. -/
theorem sameButNan_of_phys (r : Response) {w w' : Word64} (h : SameWordButNan w w') :
    Response.SameButNan { r with phys := some w } { r with phys := some w' } := by
  rcases h with rfl | ⟨hw, hw'⟩
  · exact .inl rfl
  · exact .inr ⟨w, w', rfl, rfl, hw, hw', rfl⟩

end Sys2Proof.Machine
end

section
/-!
SUPPORT. Decoding: an operation that is decoded is well formed (30_encoding.md R57, R59), and fields that are not read
change nothing (R58).
-/
namespace Sys2Proof

theorem wellFormed_of_need {legal : Bool} {i j : Instr} (h : need legal i = .ok j) (hwf : i.wf = legal) :
    j.WellFormed := by
  obtain ⟨hlegal, rfl⟩ := need_eq_ok.mp h
  exact hwf.trans hlegal

theorem wellFormed_of_decodeOperation {c : Command} {i : Instr} (h : decodeOperation c = .ok i) :
    i.WellFormed := by
  simp only [decodeOperation] at h
  split at h
  · exact wellFormed_of_need h rfl
  · exact wellFormed_of_need h rfl
  · exact wellFormed_of_need h rfl
  · exact wellFormed_of_need h rfl
  · exact wellFormed_of_need h rfl
  · cases h
  · cases h; rfl
  · cases h
  · exact wellFormed_of_need h rfl
  · exact wellFormed_of_need h rfl
  · cases h

theorem wellFormed_of_decode {c : Command} {i : Instr} (h : decode c = .ok i) : i.WellFormed :=
  wellFormed_of_decodeOperation (decode_eq_ok.mp h).2

/-- The mask of the opcode table keeps a field that lies inside it. -/
theorem extractLsb'_of_and_mask_eq {cw cw' : Word32} {start len : Nat}
    (hmask : (0x800000FF#32).extractLsb' start len = BitVec.allOnes len)
    (h : cw &&& 0x800000FF#32 = cw' &&& 0x800000FF#32) :
    cw.extractLsb' start len = cw'.extractLsb' start len := by
  simpa [BitVec.extractLsb'_and, hmask] using congrArg (BitVec.extractLsb' start len) h

open Machine in
/-- The agreement of two commands, in the decoder's own fields. -/
theorem fields_eq_of_agreeOnReadFields {c c' : Command} (h : AgreeOnReadFields c c') :
    (rsv1Of c.cw = rsv1Of c'.cw ∧ rsv0Of c.cw = rsv0Of c'.cw ∧ ordOf c.cw = ordOf c'.cw ∧ opOf c.cw = opOf c'.cw) ∧
    c.data = c'.data ∧
    ((opOf c.cw).toNat ≠ 4 → lenOf c.cw = lenOf c'.cw) ∧
    ((opOf c.cw).toNat ≠ 1 → (opOf c.cw).toNat ≠ 4 →
      bitLengthOf c.cw = bitLengthOf c'.cw ∧ startBitOf c.cw = startBitOf c'.cw) ∧
    ((opOf c.cw).toNat = 4 ∨ (opOf c.cw).toNat = 5 → c.scale = c'.scale ∧ c.offset = c'.offset) := by
  obtain ⟨hmask, hdata, hlen, hspan, hnum⟩ := h
  have op_iff (k : BitVec 4) : (opOf c.cw).toNat = k.toNat ↔ c.cw.extractLsb' 0 4 = k := BitVec.toNat_inj
  have op1 := op_iff 1
  have op4 := op_iff 4
  have op5 := op_iff 5
  refine ⟨⟨?_, ?_, ?_, ?_⟩, hdata, fun h4 => hlen (mt op4.mpr h4),
    fun h1 h4 => hspan (mt op1.mpr h1) (mt op4.mpr h4), fun h => hnum (h.imp op4.mp op5.mp)⟩
    <;> exact extractLsb'_of_and_mask_eq (by decide) hmask

open Machine in
/-- Commands that agree on the fields read name the same operation, or are rejected alike (30_encoding.md R58): each
row of R61's table reads only fields on which they agree. -/
theorem decode_eq_of_agreeOnReadFields {c c' : Command} (h : AgreeOnReadFields c c') : decode c = decode c' := by
  obtain ⟨⟨hrsv1, hrsv0, hord, hop⟩, hdata, hlen, hspan, hnum⟩ := fields_eq_of_agreeOnReadFields h
  have rows : decodeOperation c = decodeOperation c' := by
    simp only [decodeOperation, ← hop, ← hord, ← hdata]
    split
    · rw [hlen (by omega)]
    · rw [hlen (by omega)]
    · obtain ⟨hbits, hstart⟩ := hspan (by omega) (by omega)
      rw [hlen (by omega), hbits, hstart]
    · obtain ⟨hbits, hstart⟩ := hspan (by omega) (by omega)
      rw [hlen (by omega), hbits, hstart]
    · obtain ⟨hbits, hstart⟩ := hspan (by omega) (by omega)
      rw [hlen (by omega), hbits, hstart]
    · rfl
    · obtain ⟨hscale, hoffset⟩ := hnum (by omega)
      rw [hscale, hoffset]
    · rfl
    · obtain ⟨hbits, hstart⟩ := hspan (by omega) (by omega)
      obtain ⟨hscale, hoffset⟩ := hnum (by omega)
      rw [hlen (by omega), hbits, hstart, hscale, hoffset]
    · obtain ⟨hbits, hstart⟩ := hspan (by omega) (by omega)
      obtain ⟨hscale, hoffset⟩ := hnum (by omega)
      rw [hlen (by omega), hbits, hstart, hscale, hoffset]
    · rfl
  simp only [decode, hrsv1, hrsv0, rows]

end Sys2Proof
end

section
/-!
SUPPORT. The response to an operation as a function of the operation alone (10_state.md R27), up to the word that
carries a NaN; and the one next state to which every operation leads: `exec_eq` and `step_cases` say once what an
operation and a step do.
-/
namespace Sys2Proof.Machine

/-- The response to an extraction. -/
def fieldResponse (o : Option Extracted) : Response :=
  match o with
  | none => { status := .rangeError }
  | some e => extractedResponse e

/-- The response to a decode, a NaN carried by the word `nan`. -/
def decodedResponse (nan : Word64) (o : Option Extracted) (scale offset : Word64) : Response :=
  match o with
  | none => { status := .rangeError }
  | some e => { extractedResponse e with phys := some (physWord nan (BitVec.ofNat 64 e.raw) scale offset) }

/-- The response to an operation, a NaN carried by the word `nan`. -/
def responseOf (nan : Word64) : Instr → Response
  | .b2bMsb len data => codecResponse (bytesToBits .msb (frameOf len data))
  | .b2bLsb len data => codecResponse (bytesToBits .lsb (frameOf len data))
  | .extMsb len data start bits => fieldResponse (extractMsb (frameOf len data) start.toNat bits.toNat)
  | .extLsb len data start bits => fieldResponse (extractLsb (frameOf len data) start.toNat bits.toNat)
  | .xbsMsb len data start bits => fieldResponse (extractString (stringOf len data) start.toNat bits.toNat)
  | .xform data scale offset => { status := .ok, phys := some (physWord nan data scale offset) }
  | .decMsb len data start bits scale offset =>
    decodedResponse nan (extractMsb (frameOf len data) start.toNat bits.toNat) scale offset
  | .decLsb len data start bits scale offset =>
    decodedResponse nan (extractLsb (frameOf len data) start.toNat bits.toNat) scale offset

/-- The state after the oldest command has got the response `r`; the draw counter counts the responses with `PHYS`
(log entry 5). -/
def State.answered (r : Response) (s : State) : State :=
  { s.respond r with nanDraws := if r.phys.isSome then s.nanDraws + 1 else s.nanDraws }

@[simp] theorem answered_pending (r : Response) (s : State) : (s.answered r).pending = s.pending.tail := rfl
@[simp] theorem answered_responses (r : Response) (s : State) :
    (s.answered r).responses = s.responses ++ [r] := rfl
@[simp] theorem answered_nanDraws (r : Response) (s : State) :
    (s.answered r).nanDraws = if r.phys.isSome then s.nanDraws + 1 else s.nanDraws := rfl

theorem raise_eq_answered (e : Status) (s : State) : raise e s = .next (s.answered { status := e }) := rfl

theorem answerExtraction_eq_answered (o : Option Extracted) (s : State) :
    answerExtraction o s = .next (s.answered (fieldResponse o)) := by
  cases o <;> rfl

theorem answerDecode_eq_answered (i : Instr) (o : Option Extracted) (scale offset : Word64) (s : State) :
    answerDecode i o scale offset s = .next (s.answered (decodedResponse (nanWord i s) o scale offset)) := by
  cases o <;> rfl

/-- What an operation does: it answers its command, and nothing else. -/
theorem exec_eq (i : Instr) (s : State) : exec i s = .next (s.answered (responseOf (nanWord i s) i)) := by
  cases i with
  | b2bMsb len data => rfl
  | b2bLsb len data => rfl
  | extMsb len data start bits => exact answerExtraction_eq_answered _ s
  | extLsb len data start bits => exact answerExtraction_eq_answered _ s
  | xbsMsb len data start bits => exact answerExtraction_eq_answered _ s
  | xform data scale offset => rfl
  | decMsb len data start bits scale offset => exact answerDecode_eq_answered _ _ scale offset s
  | decLsb len data start bits scale offset => exact answerDecode_eq_answered _ _ scale offset s

theorem step_of_decode_ok {s : State} {c : Command} {rest : List Command} {i : Instr} (h : s.pending = c :: rest)
    (hd : decode c = .ok i) : step s = .next (s.answered (responseOf (nanWord i s) i)) := by
  rw [step_cons h, hd]
  exact exec_eq i s

theorem step_of_decode_error {s : State} {c : Command} {rest : List Command} {e : Reject} (h : s.pending = c :: rest)
    (hd : decode c = .error e) : step s = .next (s.answered { status := .illegalCommand }) := by
  rw [step_cons h, hd]
  exact raise_eq_answered _ s

/-- What a step can do: nothing when no command waits, else answer the oldest one, by its operation or with
`ILLEGAL_COMMAND`. -/
theorem step_cases (s : State) :
    step s = .next s ∨ step s = .next (s.answered { status := .illegalCommand }) ∨
      ∃ i : Instr, i.WellFormed ∧ step s = .next (s.answered (responseOf (nanWord i s) i)) := by
  cases hp : s.pending with
  | nil => exact .inl (step_of_pending_nil hp)
  | cons c rest =>
    cases hd : decode c with
    | error e => exact .inr (.inl (step_of_decode_error hp hd))
    | ok i => exact .inr (.inr ⟨i, wellFormed_of_decode hd, step_of_decode_ok hp hd⟩)

end Sys2Proof.Machine
end

section
/-!
SUPPORT. The responses to operations: each is legal (10_state.md R22, R26), holds the fields of R15's column, and is
fixed by the operation but for a NaN (R27).
-/
namespace Sys2Proof.Machine

/-! ## Legality -/

theorem codecResponse_legal {S : BitString} (h : S.length ≤ 64) : (codecResponse S).Legal :=
  .inl ⟨carriesString_stringFields h, rfl, rfl, rfl, rfl⟩

/-- `RAW` and `LIT` carry one number, and `LIT_LEN` bounds it. -/
theorem extractedResponse_isField {e : Extracted} (h : e.LiteralSpellsRaw) : (extractedResponse e).IsField := by
  obtain ⟨hlen, hval⟩ := h
  refine ⟨carriesString_stringFields hlen, ?_, rfl, rfl⟩
  simp only [extractedResponse, stringFields, hval]

theorem fieldResponse_legal {o : Option Extracted} (h : ∀ e, o = some e → e.LiteralSpellsRaw) :
    (fieldResponse o).Legal := by
  cases o with
  | none => exact rfl
  | some e => exact .inr (.inl (extractedResponse_isField (h e rfl)))

theorem decodedResponse_legal (nan : Word64) {o : Option Extracted} (scale offset : Word64)
    (h : ∀ e, o = some e → e.LiteralSpellsRaw) : (decodedResponse nan o scale offset).Legal := by
  cases o with
  | none => exact rfl
  | some e => exact .inr (.inl (extractedResponse_isField (h e rfl)))

/-- A frame of at most 8 bytes spells a string of at most 64 characters. -/
theorem bytesToBits_frameOf_length_le (order : ByteOrder) {len : BitVec 7} (data : Word64)
    (h : frameLenLegal len = true) : (bytesToBits order (frameOf len data)).length ≤ 64 := by
  have := frameLenLegal_iff.mp h
  rw [bytesToBits_length, frameOf_length]
  omega

/-- The response to every operation that a command can name is legal. -/
theorem responseOf_legal (nan : Word64) {i : Instr} (h : i.WellFormed) : (responseOf nan i).Legal := by
  cases i with
  | b2bMsb len data => exact codecResponse_legal (bytesToBits_frameOf_length_le _ data h)
  | b2bLsb len data => exact codecResponse_legal (bytesToBits_frameOf_length_le _ data h)
  | extMsb len data start bits => exact fieldResponse_legal fun _ => extractMsb_literalSpellsRaw
  | extLsb len data start bits => exact fieldResponse_legal fun _ => extractLsb_literalSpellsRaw
  | xbsMsb len data start bits => exact fieldResponse_legal fun _ => extractString_literalSpellsRaw
  | xform data scale offset => exact .inr (.inr ⟨rfl, rfl, rfl, rfl, rfl, rfl⟩)
  | decMsb len data start bits scale offset =>
    exact decodedResponse_legal nan scale offset fun _ => extractMsb_literalSpellsRaw
  | decLsb len data start bits scale offset =>
    exact decodedResponse_legal nan scale offset fun _ => extractLsb_literalSpellsRaw

theorem answered_legal {s : State} {r : Response} (hs : s.Legal) (hr : r.Legal) : (s.answered r).Legal := by
  intro r' hmem
  rcases List.mem_append.mp hmem with hold | hnew
  · exact hs r' hold
  · rwa [List.mem_singleton.mp hnew]

/-! ## The fields that hold a value -/

/-- A response holds a value in exactly the fields of a "written by" column if its status is `OK`, else in none
(10_state.md R26): `field` is the column of `RAW`, `LIT_LEN` and `LIT`, `bits` that of `BITS_LEN` and `BITS`. -/
def Response.FollowsColumn (field phys bits : Bool) (r : Response) : Prop :=
  (r.status = .ok →
    r.raw.isSome = field ∧ r.litLen.isSome = field ∧ r.lit.isSome = field ∧
    r.phys.isSome = phys ∧ r.bitsLen.isSome = bits ∧ r.bits.isSome = bits) ∧
  (r.status ≠ .ok → r = { status := r.status })

theorem codecResponse_followsColumn (S : BitString) : (codecResponse S).FollowsColumn false false true :=
  ⟨fun _ => ⟨rfl, rfl, rfl, rfl, rfl, rfl⟩, fun h => absurd rfl h⟩

theorem rangeError_followsColumn (field phys bits : Bool) :
    Response.FollowsColumn field phys bits { status := .rangeError } :=
  ⟨nofun, fun _ => rfl⟩

theorem fieldResponse_followsColumn (o : Option Extracted) : (fieldResponse o).FollowsColumn true false false := by
  cases o with
  | none => exact rangeError_followsColumn _ _ _
  | some e => exact ⟨fun _ => ⟨rfl, rfl, rfl, rfl, rfl, rfl⟩, fun h => absurd rfl h⟩

theorem decodedResponse_followsColumn (nan : Word64) (o : Option Extracted) (scale offset : Word64) :
    (decodedResponse nan o scale offset).FollowsColumn true true false := by
  cases o with
  | none => exact rangeError_followsColumn _ _ _
  | some e => exact ⟨fun _ => ⟨rfl, rfl, rfl, rfl, rfl, rfl⟩, fun h => absurd rfl h⟩

theorem responseOf_followsColumn (nan : Word64) (i : Instr) :
    (responseOf nan i).FollowsColumn (writesField i) (writesPhys i) (writesBits i) := by
  cases i with
  | b2bMsb len data => exact codecResponse_followsColumn _
  | b2bLsb len data => exact codecResponse_followsColumn _
  | extMsb len data start bits => exact fieldResponse_followsColumn _
  | extLsb len data start bits => exact fieldResponse_followsColumn _
  | xbsMsb len data start bits => exact fieldResponse_followsColumn _
  | xform data scale offset => exact ⟨fun _ => ⟨rfl, rfl, rfl, rfl, rfl, rfl⟩, fun h => absurd rfl h⟩
  | decMsb len data start bits scale offset => exact decodedResponse_followsColumn _ _ _ _
  | decLsb len data start bits scale offset => exact decodedResponse_followsColumn _ _ _ _

/-! ## Independence of the word that carries a NaN -/

section NanWords
variable {nan nan' : Word64} (h : isNanWord nan = true) (h' : isNanWord nan' = true)
include h h'

theorem decodedResponse_sameButNan (o : Option Extracted) (scale offset : Word64) :
    (decodedResponse nan o scale offset).SameButNan (decodedResponse nan' o scale offset) := by
  cases o with
  | none => exact .inl rfl
  | some e => exact sameButNan_of_phys (extractedResponse e) (physWord_sameWordButNan h h' _ scale offset)

/-- The response to an operation is fixed by the operation, but for the sign and payload of a NaN. -/
theorem responseOf_sameButNan (i : Instr) : (responseOf nan i).SameButNan (responseOf nan' i) := by
  cases i with
  | b2bMsb len data => exact .inl rfl
  | b2bLsb len data => exact .inl rfl
  | extMsb len data start bits => exact .inl rfl
  | extLsb len data start bits => exact .inl rfl
  | xbsMsb len data start bits => exact .inl rfl
  | xform data scale offset =>
    exact sameButNan_of_phys { status := .ok } (physWord_sameWordButNan h h' data scale offset)
  | decMsb len data start bits scale offset => exact decodedResponse_sameButNan h h' _ scale offset
  | decLsb len data start bits scale offset => exact decodedResponse_sameButNan h h' _ scale offset

end NanWords

end Sys2Proof.Machine
end

section
/-! The statements of 10_state.md. -/
namespace Sys2Proof.Proofs
open Sys2Proof.Machine

/-- Settles O10: a step delivers at most one response more, that of a well-formed operation or of an illegal
command. -/
theorem stepKeepsResponsesLegal : Obligations.StepKeepsResponsesLegal := by
  intro s t hs hstep
  rcases step_cases s with h | h | ⟨i, hwf, h⟩ <;> obtain rfl := Host.Outcome.next.inj (h.symm.trans hstep)
  · exact hs
  · exact answered_legal hs rfl
  · exact answered_legal hs (responseOf_legal _ hwf)

/-- Settles O11, by the form of the response to each operation. -/
theorem responseFieldsFollowTheOperation : Obligations.ResponseFieldsFollowTheOperation := by
  refine ⟨fun i s => ?_, fun s c rest e hp hd => ?_⟩
  · exact ⟨_, _, exec_eq i s, answered_responses _ s, responseOf_followsColumn _ i⟩
  · exact ⟨_, step_of_decode_error hp hd, answered_responses _ s⟩

/-- Settles O12. -/
theorem operationsChangeOnlyTheirResponse : Obligations.OperationsChangeOnlyTheirResponse :=
  fun i s => ⟨_, _, exec_eq i s, answered_pending _ s, answered_responses _ s, answered_nanDraws _ s⟩

/-- Settles O13: the two commands decode alike, and the words drawn for a NaN are NaNs. -/
theorem responseDependsOnItsCommandAlone : Obligations.ResponseDependsOnItsCommandAlone := by
  intro s s' c c' rest rest' hp hp' hagree
  have hdecode := decode_eq_of_agreeOnReadFields hagree
  cases hd : decode c with
  | error e =>
    exact ⟨_, _, _, _, step_of_decode_error hp hd, step_of_decode_error hp' (hdecode ▸ hd), answered_responses _ s,
      answered_responses _ s', .inl rfl⟩
  | ok i =>
    exact ⟨_, _, _, _, step_of_decode_ok hp hd, step_of_decode_ok hp' (hdecode ▸ hd), answered_responses _ s,
      answered_responses _ s', responseOf_sameButNan (isNanWord_nanWord i s) (isNanWord_nanWord i s') i⟩

/-- Settles O21: `val` and `str` undo each other. -/
theorem bitStringIsLengthAndValue : Obligations.BitStringIsLengthAndValue :=
  ⟨fun S => ⟨val_lt S, str_val S⟩, fun _ _ => val_str_of_lt⟩

/-- Settles O2: at reset no response has been delivered. -/
theorem resetResponsesLegal : Obligations.ResetResponsesLegal := by
  intro r hr
  rw [reset_responses] at hr
  cases hr

end Sys2Proof.Proofs
end

section
/-!
SUPPORT. The bits of a frame under both numberings (20_memory.md R32, R33): the one numbering as the mirror of the
other, within a byte and over the whole frame, and the bits of the frame's integers and of its two strings.
-/
namespace Sys2Proof.Machine

/-! ## The first byte and the rest -/

theorem frameBitMsb_cons_of_lt (b : Byte) (f : Frame) {p : Nat} (h : p < 8) :
    frameBitMsb (b :: f) p = b.getLsbD (7 - p) := by
  rw [frameBitMsb, Nat.div_eq_of_lt h, Nat.mod_eq_of_lt h, List.getD_cons_zero]

theorem frameBitMsb_cons_add (b : Byte) (f : Frame) (p : Nat) : frameBitMsb (b :: f) (p + 8) = frameBitMsb f p := by
  rw [frameBitMsb, frameBitMsb, Nat.add_div_right p (by decide), Nat.add_mod_right, List.getD_cons_succ]

theorem frameBitLsb_cons_of_lt (b : Byte) (f : Frame) {p : Nat} (h : p < 8) :
    frameBitLsb (b :: f) p = b.getLsbD p := by
  rw [frameBitLsb, Nat.div_eq_of_lt h, Nat.mod_eq_of_lt h, List.getD_cons_zero]

theorem frameBitLsb_cons_add (b : Byte) (f : Frame) (p : Nat) : frameBitLsb (b :: f) (p + 8) = frameBitLsb f p := by
  rw [frameBitLsb, frameBitLsb, Nat.add_div_right p (by decide), Nat.add_mod_right, List.getD_cons_succ]

/-! ## One numbering from the other -/

/-- The same physical bit: same byte, the bit counted from its other end (20_memory.md R35). -/
theorem frameBitMsb_mirror (f : Frame) (p : Nat) : frameBitMsb f (8 * (p / 8) + 7 - p % 8) = frameBitLsb f p := by
  have byte : (8 * (p / 8) + 7 - p % 8) / 8 = p / 8 := by omega
  have bit : 7 - (8 * (p / 8) + 7 - p % 8) % 8 = p % 8 := by omega
  rw [frameBitMsb, frameBitLsb, byte, bit]

/-- Counted from the other end of the whole frame, a bit stands in the frame with its bytes reversed. -/
theorem frameBitLsb_reverse {f : Frame} {p : Nat} (h : p < 8 * f.length) :
    frameBitLsb f.reverse (8 * f.length - 1 - p) = frameBitMsb f p := by
  have byte : f.reverse.getD ((8 * f.length - 1 - p) / 8) 0 = f.getD (p / 8) 0 := by
    rw [List.getD_reverse _ (by omega)]
    congr 1
    omega
  have bit : (8 * f.length - 1 - p) % 8 = 7 - p % 8 := by omega
  rw [frameBitLsb, frameBitMsb, byte, bit]

theorem frameBitMsb_reverse {f : Frame} {p : Nat} (h : p < 8 * f.length) :
    frameBitMsb f.reverse (8 * f.length - 1 - p) = frameBitLsb f p := by
  have mirror := frameBitLsb_reverse (f := f.reverse) (p := 8 * f.length - 1 - p)
    (by rw [List.length_reverse]; omega)
  rw [List.reverse_reverse, List.length_reverse] at mirror
  rw [← mirror]
  congr 1
  omega

/-! ## The bits of the frame's integers -/

theorem le_append (f g : Frame) : le (f ++ g) = le f + 2 ^ (8 * f.length) * le g := by
  induction f with
  | nil => simp [le]
  | cons b f ih => simp only [List.cons_append, le, ih, List.length_cons, Nat.mul_succ, pow_add]; ring

theorem le_reverse (f : Frame) : le f.reverse = be f := by
  induction f with
  | nil => rfl
  | cons b f ih => simp only [List.reverse_cons, le_append, ih, List.length_reverse, be, le]; ring

/-- Bit `p` of the little-endian integer is LSB position `p`; above the frame both are 0. -/
theorem testBit_le (f : Frame) (p : Nat) : (le f).testBit p = frameBitLsb f p := by
  induction f generalizing p with
  | nil => simp [le, frameBitLsb]
  | cons b f ih =>
    have low : le (b :: f) = 2 ^ 8 * le f + b.toNat := Nat.add_comm _ _
    rw [low, Nat.testBit_two_pow_mul_add _ b.isLt]
    split
    case isTrue h => rw [frameBitLsb_cons_of_lt b f h, BitVec.testBit_toNat]
    case isFalse h => rw [ih, ← frameBitLsb_cons_add b f (p - 8), Nat.sub_add_cancel (Nat.le_of_not_lt h)]

/-- Counted from its top bit, the big-endian integer has the bits of the MSB numbering. -/
theorem testBit_be {f : Frame} {p : Nat} (h : p < 8 * f.length) :
    (be f).testBit (8 * f.length - 1 - p) = frameBitMsb f p := by
  rw [← le_reverse, testBit_le, frameBitLsb_reverse h]

/-! ## The characters of the frame's strings -/

theorem byteBits_getElem? (b : Byte) {m : Nat} (h : m < 8) : (byteBits b)[m]? = some (b.getLsbD (7 - m)) := by
  simp [byteBits, h]

theorem bytesToBits_msb_cons (b : Byte) (f : Frame) :
    bytesToBits .msb (b :: f) = byteBits b ++ bytesToBits .msb f := rfl

theorem bytesToBits_lsb (f : Frame) : bytesToBits .lsb f = bytesToBits .msb f.reverse := rfl

/-- Index `p` of the MSB-order string is MSB position `p` (20_memory.md R32). -/
theorem bytesToBits_msb_getElem? {f : Frame} {p : Nat} (h : p < 8 * f.length) :
    (bytesToBits .msb f)[p]? = some (frameBitMsb f p) := by
  induction f generalizing p with
  | nil => simp at h
  | cons b f ih =>
    rw [bytesToBits_msb_cons]
    by_cases hp : p < 8
    · rw [List.getElem?_append_left hp, byteBits_getElem? b hp, frameBitMsb_cons_of_lt b f hp]
    · have rest : p - 8 < 8 * f.length := by rw [List.length_cons] at h; omega
      rw [List.getElem?_append_right (Nat.le_of_not_lt hp), byteBits_length, ih rest,
        ← frameBitMsb_cons_add b f (p - 8), Nat.sub_add_cancel (Nat.le_of_not_lt hp)]

/-- LSB position `p` is counted from the end of the LSB-order string (40_bitstring_codec.md R74). -/
theorem bytesToBits_lsb_getElem? {f : Frame} {p : Nat} (h : p < 8 * f.length) :
    (bytesToBits .lsb f)[8 * f.length - 1 - p]? = some (frameBitLsb f p) := by
  rw [bytesToBits_lsb, bytesToBits_msb_getElem? (by rw [List.length_reverse]; omega), frameBitMsb_reverse h]

end Sys2Proof.Machine
end

section
/-! The statements of 20_memory.md. -/
namespace Sys2Proof.Proofs
open Sys2Proof.Machine

/-- Settles O22. -/
theorem msbPositionIsStringIndex : Obligations.MsbPositionIsStringIndex := by
  intro f p h
  exact ⟨by rw [frameBitMsb, List.getD_eq_getElem f 0 h], bytesToBits_msb_getElem? (by omega)⟩

/-- Settles O23: the LSB-order string is the MSB-order string of the reversed frame. -/
theorem lsbPositionCountsFromStringEnd : Obligations.LsbPositionCountsFromStringEnd := by
  intro f p h
  exact ⟨by rw [frameBitLsb, List.getD_eq_getElem f 0 h], bytesToBits_lsb_getElem? (by omega)⟩

/-- Settles O24: the bits of the little-endian integer, and the big-endian integer as that of the reversed frame. -/
theorem frameBitsAreIntegerBits : Obligations.FrameBitsAreIntegerBits :=
  fun f p h => ⟨(testBit_le f p).symm, (testBit_be h).symm, (frameBitMsb_mirror f p).symm⟩

end Sys2Proof.Proofs
end

section
/-!
SUPPORT. Decoding by the table (30_encoding.md R51, R52): a control word with an operation's fixed bits names that
operation, its operands read from the fields of the command, and a packed control word holds the fields put into it.
-/
namespace Sys2Proof

/-! ## The fields of a packed control word -/

section PackedFields
variable (len : BitVec 7) (start bits : BitVec 8) (ord : BitVec 1) (op : BitVec 4)

@[simp] theorem lenOf_packCw : lenOf (packCw len start bits ord op) = len := by
  refine BitVec.eq_of_getLsbD_eq fun k hk => ?_
  rw [lenOf, BitVec.getLsbD_extractLsb', packCw_getLsbD]
  interval_cases k <;> simp

@[simp] theorem startBitOf_packCw : startBitOf (packCw len start bits ord op) = start := by
  refine BitVec.eq_of_getLsbD_eq fun k hk => ?_
  rw [startBitOf, BitVec.getLsbD_extractLsb', packCw_getLsbD]
  interval_cases k <;> simp

@[simp] theorem bitLengthOf_packCw : bitLengthOf (packCw len start bits ord op) = bits := by
  refine BitVec.eq_of_getLsbD_eq fun k hk => ?_
  rw [bitLengthOf, BitVec.getLsbD_extractLsb', packCw_getLsbD]
  interval_cases k <;> simp

end PackedFields

/-! ## The rows of the table -/

/-- A control word has the fixed fields of its match value. -/
theorem fixedFields_of_match {cw v : Word32} (h : cw &&& 0x800000FF#32 = v) :
    rsv1Of cw = rsv1Of v ∧ rsv0Of cw = rsv0Of v ∧ opOf cw = opOf v ∧ ordOf cw = ordOf v := by
  have hmask : cw &&& 0x800000FF#32 = v &&& 0x800000FF#32 := by rw [← h, BitVec.and_assoc, BitVec.and_self]
  refine ⟨?_, ?_, ?_, ?_⟩ <;> exact extractLsb'_of_and_mask_eq (by decide) hmask

/-- The operation of the same row as `i` with the operands that the command `c` holds (30_encoding.md R51, R52). -/
def Instr.readFrom (c : Command) : Instr → Instr
  | .b2bMsb _ _ => .b2bMsb (lenOf c.cw) c.data
  | .b2bLsb _ _ => .b2bLsb (lenOf c.cw) c.data
  | .extMsb _ _ _ _ => .extMsb (lenOf c.cw) c.data (startBitOf c.cw) (bitLengthOf c.cw)
  | .extLsb _ _ _ _ => .extLsb (lenOf c.cw) c.data (startBitOf c.cw) (bitLengthOf c.cw)
  | .xbsMsb _ _ _ _ => .xbsMsb (lenOf c.cw) c.data (startBitOf c.cw) (bitLengthOf c.cw)
  | .xform _ _ _ => .xform c.data c.scale c.offset
  | .decMsb _ _ _ _ _ _ => .decMsb (lenOf c.cw) c.data (startBitOf c.cw) (bitLengthOf c.cw) c.scale c.offset
  | .decLsb _ _ _ _ _ _ => .decLsb (lenOf c.cw) c.data (startBitOf c.cw) (bitLengthOf c.cw) c.scale c.offset

theorem rsvOf_tableMatch (i : Instr) : rsv1Of (tableMatch i) = 0 ∧ rsv0Of (tableMatch i) = 0 := by
  cases i <;> simp only [tableMatch] <;> decide

/-- With its reserved bits zero a command is decoded by the rows of R61's table. -/
theorem decode_of_rsv_eq_zero {c : Command} (h : rsv1Of c.cw = 0 ∧ rsv0Of c.cw = 0) : decode c = decodeOperation c :=
  if_pos h

/-- A command with the fixed bits of a row names that row's operation, if its `LEN` is legal: the match value fixes
`OP` and `ORD`, and so the row of R61's table. -/
theorem decode_of_tableMatch {c : Command} {i : Instr} (h : c.cw &&& 0x800000FF#32 = tableMatch i) :
    decode c = need (i.readFrom c).wf (i.readFrom c) := by
  obtain ⟨hrsv1, hrsv0, hop, hord⟩ := fixedFields_of_match h
  rw [decode_of_rsv_eq_zero (by rw [hrsv1, hrsv0]; exact rsvOf_tableMatch i), decodeOperation, hop, hord]
  cases i <;> simp only [tableMatch] <;> rfl

theorem decode_eq_ok_of_tableMatch {c : Command} {i : Instr} (h : c.cw &&& 0x800000FF#32 = tableMatch i)
    (hwf : (i.readFrom c).WellFormed) : decode c = .ok (i.readFrom c) :=
  (decode_of_tableMatch h).trans (need_eq_ok.mpr ⟨hwf, rfl⟩)

/-- The control word of every operation has its row's fixed bits. -/
theorem encode_cw_and_mask (i : Instr) : (encode i).cw &&& 0x800000FF#32 = tableMatch i := by
  cases i with
  | b2bMsb len data => exact Laws.EncodeMatchesTable.b2bMsb len data
  | b2bLsb len data => exact Laws.EncodeMatchesTable.b2bLsb len data
  | extMsb len data start bits => exact Laws.EncodeMatchesTable.extMsb len data start bits
  | extLsb len data start bits => exact Laws.EncodeMatchesTable.extLsb len data start bits
  | xbsMsb len data start bits => exact Laws.EncodeMatchesTable.xbsMsb len data start bits
  | xform data scale offset => exact Laws.EncodeMatchesTable.xform data scale offset
  | decMsb len data start bits scale offset =>
    exact Laws.EncodeMatchesTable.decMsb len data start bits scale offset
  | decLsb len data start bits scale offset =>
    exact Laws.EncodeMatchesTable.decLsb len data start bits scale offset

/-- The command of an operation holds all its operands. -/
theorem readFrom_encode (i : Instr) : i.readFrom (encode i) = i := by
  cases i <;> simp [Instr.readFrom, encode]

/-! ## The commands that name no operation (30_encoding.md R57) -/

/-- Conditions 2 to 5 of R57, in the decoder's own fields as numbers. -/
def OperationRejected (op ord len : Nat) : Prop :=
  (op = 0 ∨ 6 ≤ op) ∨ (op = 3 ∨ op = 4) ∧ ord = 1 ∨ (op = 1 ∨ op = 2 ∨ op = 5) ∧ 8 < len ∨ op = 3 ∧ 64 < len

/-- The five conditions of R57 are a reserved bit set, or conditions 2 to 5. -/
theorem illegalCommand_iff {c : Command} : Machine.IllegalCommand c ↔
    ¬ (rsv1Of c.cw = 0 ∧ rsv0Of c.cw = 0) ∨
      OperationRejected (opOf c.cw).toNat (ordOf c.cw).toNat (lenOf c.cw).toNat := by
  have op_iff (k : BitVec 4) : c.cw.extractLsb' 0 4 = k ↔ (opOf c.cw).toNat = k.toNat := BitVec.toNat_inj.symm
  have ord_iff : c.cw.extractLsb' 4 1 = 1 ↔ (ordOf c.cw).toNat = 1 := BitVec.toNat_inj.symm
  simp only [Machine.IllegalCommand, OperationRejected, op_iff, ord_iff]
  simp only [opOf, ordOf, lenOf, rsv0Of, rsv1Of]
  tauto

theorem need_isError_iff {legal : Bool} {i : Instr} : (∃ e, need legal i = .error e) ↔ legal = false := by
  simp [need_eq_error]

theorem frameLenLegal_eq_false_iff {len : BitVec 7} : frameLenLegal len = false ↔ 8 < len.toNat := by
  rw [← Bool.not_eq_true, frameLenLegal_iff, Nat.not_le]

theorem stringLenLegal_eq_false_iff {len : BitVec 7} : stringLenLegal len = false ↔ 64 < len.toNat := by
  rw [← Bool.not_eq_true, stringLenLegal_iff, Nat.not_le]

/-- The rows of R61's table reject an operation exactly under conditions 2 to 5 of R57. -/
theorem decodeOperation_isError_iff (c : Command) : (∃ e, decodeOperation c = .error e) ↔
    OperationRejected (opOf c.cw).toNat (ordOf c.cw).toNat (lenOf c.cw).toNat := by
  have hord : (ordOf c.cw).toNat < 2 := (ordOf c.cw).isLt
  simp only [decodeOperation, OperationRejected]
  split
  all_goals simp only [need_isError_iff, frameLenLegal_eq_false_iff, stringLenLegal_eq_false_iff, reduceCtorEq,
    exists_false, Except.error.injEq, exists_eq', true_iff, false_iff]
  case h_11 =>
    simp only [imp_false] at *
    omega
  all_goals omega

/-- The decoder rejects a command exactly under the five conditions of R57. -/
theorem decode_isError_iff (c : Command) : (∃ e, decode c = .error e) ↔ Machine.IllegalCommand c := by
  rw [illegalCommand_iff, ← decodeOperation_isError_iff, decode]
  split
  case isTrue h => simp [h]
  case isFalse h => exact iff_of_true ⟨_, rfl⟩ (.inl h)

theorem decode_isOk_iff (c : Command) : (∃ i, decode c = .ok i) ↔ ¬ Machine.IllegalCommand c := by
  rw [← decode_isError_iff]
  cases decode c <;> simp

end Sys2Proof
end

section
/-!
SUPPORT. The operands on the `DATA` word (30_encoding.md R54, R55): which bits of it a frame and a string hold, and
that an operation's response depends on no others.
-/
namespace Sys2Proof.Machine

/-! ## The bits of `DATA` that an operand holds -/

theorem testBit_eq_of_mod_eq {v w n : Nat} (h : v % 2 ^ n = w % 2 ^ n) {k : Nat} (hk : k < n) :
    v.testBit k = w.testBit k := by
  have := congrArg (Nat.testBit · k) h
  simpa [Nat.testBit_mod_two_pow, hk] using this

theorem frameOf_getElem? {len : BitVec 7} {k : Nat} (data : Word64) (h : k < len.toNat) :
    (frameOf len data)[k]? = some (data.extractLsb' (8 * k) 8) := by
  simp [frameOf, h]

/-- The frame holds the low `8 * LEN` bits of `DATA` only. -/
theorem frameOf_congr {len : BitVec 7} {data data' : Word64}
    (h : data.toNat % 2 ^ (8 * len.toNat) = data'.toNat % 2 ^ (8 * len.toNat)) :
    frameOf len data = frameOf len data' := by
  refine List.map_congr_left fun k hk => BitVec.eq_of_getLsbD_eq fun j hj => ?_
  have hk := List.mem_range.mp hk
  have bit : data.toNat.testBit (8 * k + j) = data'.toNat.testBit (8 * k + j) := testBit_eq_of_mod_eq h (by omega)
  rw [BitVec.testBit_toNat, BitVec.testBit_toNat] at bit
  rw [BitVec.getLsbD_extractLsb', BitVec.getLsbD_extractLsb', bit]

/-- The string holds the low `LEN` bits of `DATA` only. -/
theorem stringOf_congr {len : BitVec 7} {data data' : Word64}
    (h : data.toNat % 2 ^ len.toNat = data'.toNat % 2 ^ len.toNat) : stringOf len data = stringOf len data' :=
  str_congr fun _ => testBit_eq_of_mod_eq h

theorem stringOf_getElem? {len : BitVec 7} {j : Nat} (data : Word64) (h : j < len.toNat) :
    (stringOf len data)[j]? = some (data.getLsbD (len.toNat - 1 - j)) := by
  rw [stringOf, str_getElem? _ h, BitVec.testBit_toNat]

/-! ## Outcomes that differ at most in a NaN -/

theorem Response.SameButNan.phys_isSome_eq {r r' : Response} (h : r.SameButNan r') :
    r.phys.isSome = r'.phys.isSome := by
  rcases h with rfl | ⟨w, w', hw, hw', -⟩
  · rfl
  · rw [hw, hw']; rfl

/-- Answers that differ at most in a NaN, in states that differ at most in the command answered, give outcomes that
differ at most in a NaN. -/
theorem outcomesSameButNan_answered {s s' : State} {r r' : Response} (hpending : s.pending.tail = s'.pending.tail)
    (hresponses : s.responses = s'.responses) (hdraws : s.nanDraws = s'.nanDraws) (h : r.SameButNan r') :
    OutcomesSameButNan (.next (s.answered r)) (.next (s'.answered r')) := by
  refine ⟨{ s.answered r with responses := s.responses }, r, r', rfl, ?_, h⟩
  simp [State.answered, State.respond, hpending, hresponses, hdraws, h.phys_isSome_eq]

/-- Operations with the same response up to the word drawn for a NaN have the same outcome up to that word. -/
theorem exec_sameButNan {i i' : Instr} (s : State) (h : ∀ nan, responseOf nan i = responseOf nan i') :
    OutcomesSameButNan (exec i s) (exec i' s) := by
  rw [exec_eq, exec_eq, ← h]
  exact outcomesSameButNan_answered rfl rfl rfl
    (responseOf_sameButNan (isNanWord_nanWord i s) (isNanWord_nanWord i' s) i)

/-! ## The frame's MSB-order string on the ports -/

theorem byteBits_eq_str (b : Byte) : byteBits b = str 8 b.toNat := rfl

/-- The MSB-order string spells the big-endian integer (40_bitstring_codec.md R74). -/
theorem val_bytesToBits_msb (f : Frame) : val (bytesToBits .msb f) = be f := by
  induction f with
  | nil => rfl
  | cons b f ih =>
    rw [bytesToBits_msb_cons, val_append, ih, bytesToBits_length, byteBits_eq_str, val_str_of_lt b.isLt, be]

/-- A string the ports can carry is read back from them (30_encoding.md R55). -/
theorem stringOf_stringFields {S : BitString} (h : S.length ≤ 64) :
    stringOf (stringFields S).1 (stringFields S).2 = S := by
  obtain ⟨hlen, hval⟩ := stringFields_toNat h
  rw [stringOf, hlen, hval, str_val]

end Sys2Proof.Machine
end

section
/-! The statements of 30_encoding.md. -/
namespace Sys2Proof.Proofs
open Sys2Proof.Machine

/-- Settles O16: the encoding has the operation's row and holds its operands, and the decoder reads both back. -/
theorem decodeEncodeRoundTrip : Obligations.DecodeEncodeRoundTrip := by
  intro i hwf
  have read := decode_eq_ok_of_tableMatch (encode_cw_and_mask i)
  rw [readFrom_encode] at read
  exact read hwf

/-- Settles O6. -/
theorem illegalCommandsExactlyTheReserved : Obligations.IllegalCommandsExactlyTheReserved := by
  refine ⟨decode_isError_iff, decode_isOk_iff, fun s c rest hp hc => ?_⟩
  obtain ⟨e, hd⟩ := (decode_isError_iff c).mpr hc
  rw [step_of_decode_error hp hd, ← raise_eq_answered, raise, answer, respond_eq_of_pending hp]

/-- Settles O15: the two commands decode alike, and only the word drawn for a NaN can tell them apart. -/
theorem unreadFieldsAreIgnored : Obligations.UnreadFieldsAreIgnored := by
  intro c c' hagree
  have hdecode := decode_eq_of_agreeOnReadFields hagree
  refine ⟨hdecode, fun s rest => ?_⟩
  cases hd : decode c with
  | error e =>
    rw [step_of_decode_error rfl hd, step_of_decode_error rfl (hdecode ▸ hd)]
    exact outcomesSameButNan_answered rfl rfl rfl (.inl rfl)
  | ok i =>
    rw [step_of_decode_ok rfl hd, step_of_decode_ok rfl (hdecode ▸ hd)]
    exact outcomesSameButNan_answered rfl rfl rfl
      (responseOf_sameButNan (isNanWord_nanWord i _) (isNanWord_nanWord i _) i)

/-- Settles O17: one row of the table for each operation. -/
theorem tableMatchSelectsOperation : Obligations.TableMatchSelectsOperation := by
  intro c
  refine ⟨fun h hlen => ?_, fun h hlen => ?_, fun h hlen => ?_, fun h hlen => ?_, fun h hlen => ?_, fun h => ?_,
    fun h hlen => ?_, fun h hlen => ?_⟩
  · exact decode_eq_ok_of_tableMatch (i := .b2bMsb 0 0) h (frameLenLegal_iff.mpr hlen)
  · exact decode_eq_ok_of_tableMatch (i := .b2bLsb 0 0) h (frameLenLegal_iff.mpr hlen)
  · exact decode_eq_ok_of_tableMatch (i := .extMsb 0 0 0 0) h (frameLenLegal_iff.mpr hlen)
  · exact decode_eq_ok_of_tableMatch (i := .extLsb 0 0 0 0) h (frameLenLegal_iff.mpr hlen)
  · exact decode_eq_ok_of_tableMatch (i := .xbsMsb 0 0 0 0) h (stringLenLegal_iff.mpr hlen)
  · exact decode_eq_ok_of_tableMatch (i := .xform 0 0 0) h rfl
  · exact decode_eq_ok_of_tableMatch (i := .decMsb 0 0 0 0 0 0) h (frameLenLegal_iff.mpr hlen)
  · exact decode_eq_ok_of_tableMatch (i := .decLsb 0 0 0 0 0 0) h (frameLenLegal_iff.mpr hlen)

/-- Settles O19: every frame operation reads `DATA` through the frame alone. -/
theorem frameBytesOnDataPort : Obligations.FrameBytesOnDataPort := by
  refine ⟨fun len data => ⟨frameOf_length len data, fun k => frameOf_getElem? data⟩,
    fun len data data' start bits scale offset s h => ?_⟩
  have frame := frameOf_congr h
  refine ⟨?_, ?_, ?_, ?_, exec_sameButNan s fun nan => ?_, exec_sameButNan s fun nan => ?_⟩
  · simp only [exec, execB2bMsb, frame]
  · simp only [exec, execB2bLsb, frame]
  · simp only [exec, execExtMsb, frame]
  · simp only [exec, execExtLsb, frame]
  · simp only [responseOf, frame]
  · simp only [responseOf, frame]

/-- Settles O20: the string that `B2B.MSB` returns fits the ports, spells `be(f)` and is read back from them. -/
theorem stringBitsOnDataPort : Obligations.StringBitsOnDataPort := by
  refine ⟨fun len data => ⟨stringOf_length len data, fun j => stringOf_getElem? data⟩,
    fun len data data' start bits s h => ?_, fun len data s hlen => ?_⟩
  · simp only [exec, execXbsMsb, stringOf_congr h]
  · have fits := bytesToBits_frameOf_length_le .msb data (frameLenLegal_iff.mpr hlen)
    obtain ⟨hn, hw⟩ := stringFields_toNat fits
    refine ⟨_, _, exec_eq _ s, ?_, ?_, stringOf_stringFields fits⟩
    · rw [hn, bytesToBits_length, frameOf_length]
    · rw [hw, val_bytesToBits_msb]

/-- Settles O3. -/
theorem stepRunsDecodedOperation : Obligations.StepRunsDecodedOperation := by
  intro s c rest i hp hd
  exact ⟨wellFormed_of_decode hd, by rw [step_cons hp, hd]⟩

/-- Settles O18, by evaluating the decoder on each word. -/
theorem sampleWordsDecode : Obligations.SampleWordsDecode :=
  ⟨rfl, rfl, rfl, rfl, rfl, rfl, rfl, rfl⟩

end Sys2Proof.Proofs
end

section
/-!
SUPPORT. The BitString Codec (40_bitstring_codec.md R70 to R76): its conversion is one-to-one and onto, its strings
spell the frame's two integers, reversing a string reverses the bits of every byte, and its operations return the
string's fields.
-/
namespace Sys2Proof.Machine

/-! ## One byte -/

theorem byteBits_injective : Function.Injective byteBits := by
  intro a b h
  have value : val (byteBits a) = val (byteBits b) := congrArg val h
  rw [byteBits_eq_str, byteBits_eq_str, val_str_of_lt a.isLt, val_str_of_lt b.isLt] at value
  exact BitVec.eq_of_toNat_eq value

/-- Every 8 characters are the bits of the byte they spell. -/
theorem byteBits_ofNat_val {S : BitString} (h : S.length = 8) : byteBits (BitVec.ofNat 8 (val S)) = S := by
  have value : val S < 2 ^ 8 := h ▸ val_lt S
  calc byteBits (BitVec.ofNat 8 (val S))
    _ = str 8 (val S) := by rw [byteBits_eq_str, BitVec.toNat_ofNat, Nat.mod_eq_of_lt value]
    _ = S := by rw [← h, str_val]

theorem byteBits_bitrev (b : Byte) : byteBits (BitVec.ofNat 8 (bitrev 8 b.toNat)) = (byteBits b).reverse :=
  byteBits_ofNat_val (by rw [List.length_reverse, str_length])

/-! ## One-to-one and onto (R70) -/

theorem bytesToBits_msb_injective : Function.Injective (bytesToBits .msb) := by
  intro f g h
  have length : f.length = g.length := by
    have := congrArg List.length h
    rw [bytesToBits_length, bytesToBits_length] at this
    omega
  induction f generalizing g with
  | nil => exact (List.length_eq_zero_iff.mp length.symm).symm
  | cons a f ih =>
    cases g with
    | nil => cases length
    | cons b g =>
      rw [bytesToBits_msb_cons, bytesToBits_msb_cons] at h
      obtain ⟨first, rest⟩ := List.append_inj h rfl
      rw [byteBits_injective first, ih rest (Nat.succ.inj length)]

theorem bytesToBits_injective (order : ByteOrder) : Function.Injective (bytesToBits order) := by
  cases order with
  | msb => exact bytesToBits_msb_injective
  | lsb => exact bytesToBits_msb_injective.comp List.reverse_injective

/-- The frame is read off the string 8 characters at a time. -/
theorem exists_bytesToBits_msb_eq {N : Nat} {S : BitString} (h : S.length = 8 * N) :
    ∃ f : Frame, f.length = N ∧ bytesToBits .msb f = S := by
  induction N generalizing S with
  | zero => exact ⟨[], rfl, (List.length_eq_zero_iff.mp h).symm⟩
  | succ N ih =>
    obtain ⟨f, length, rest⟩ := ih (S := S.drop 8) (by rw [List.length_drop]; omega)
    have first : (S.take 8).length = 8 := by rw [List.length_take]; omega
    refine ⟨BitVec.ofNat 8 (val (S.take 8)) :: f, congrArg (· + 1) length, ?_⟩
    rw [bytesToBits_msb_cons, byteBits_ofNat_val first, rest, List.take_append_drop]

theorem exists_bytesToBits_eq (order : ByteOrder) {N : Nat} {S : BitString} (h : S.length = 8 * N) :
    ∃ f : Frame, f.length = N ∧ bytesToBits order f = S := by
  obtain ⟨f, length, spells⟩ := exists_bytesToBits_msb_eq h
  cases order with
  | msb => exact ⟨f, length, spells⟩
  | lsb =>
    refine ⟨f.reverse, by rw [List.length_reverse, length], ?_⟩
    rw [bytesToBits_lsb, List.reverse_reverse, spells]

/-! ## Reversal (R76) -/

theorem bytesToBits_lsb_of_reverse (f : Frame) : bytesToBits .lsb f.reverse = bytesToBits .msb f := by
  rw [bytesToBits_lsb, List.reverse_reverse]

theorem brev8_reverse (f : Frame) : brev8 f.reverse = (brev8 f).reverse := List.map_reverse

/-- The string backwards has the bytes from last to first, and each byte's bits backwards. -/
theorem bytesToBits_msb_reverse (f : Frame) : (bytesToBits .msb f).reverse = bytesToBits .lsb (brev8 f) := by
  induction f with
  | nil => rfl
  | cons b f ih =>
    calc (bytesToBits .msb (b :: f)).reverse
      _ = bytesToBits .lsb (brev8 f) ++ byteBits (BitVec.ofNat 8 (bitrev 8 b.toNat)) := by
        rw [bytesToBits_msb_cons, List.reverse_append, ih, byteBits_bitrev]
      _ = bytesToBits .lsb (brev8 (b :: f)) := by simp [bytesToBits, brev8]

theorem bytesToBits_lsb_reverse (f : Frame) : (bytesToBits .lsb f).reverse = bytesToBits .msb (brev8 f) := by
  rw [bytesToBits_lsb, bytesToBits_msb_reverse, brev8_reverse, bytesToBits_lsb_of_reverse]

/-! ## The frame's integers (R74) -/

/-- The LSB-order string spells the little-endian integer. -/
theorem val_bytesToBits_lsb (f : Frame) : val (bytesToBits .lsb f) = le f := by
  rw [bytesToBits_lsb, val_bytesToBits_msb, ← le_reverse, List.reverse_reverse]

section FrameOnDataPort
variable {len : BitVec 7} (data : Word64)

theorem frameOf_getD {k : Nat} (h : k < len.toNat) : (frameOf len data).getD k 0 = data.extractLsb' (8 * k) 8 := by
  rw [List.getD_eq_getElem?_getD, frameOf_getElem? data h, Option.getD_some]

/-- LSB position `p` of a frame is bit `p` of `DATA` (30_encoding.md R54). -/
theorem frameBitLsb_frameOf {p : Nat} (h : p < 8 * len.toNat) : frameBitLsb (frameOf len data) p = data.getLsbD p := by
  have bit : 8 * (p / 8) + p % 8 = p := Nat.div_add_mod p 8
  rw [frameBitLsb, frameOf_getD data (by omega), BitVec.getLsbD_extractLsb', bit]
  simp [Nat.mod_lt]

theorem le_frameOf (len : BitVec 7) : le (frameOf len data) = data.toNat % 2 ^ (8 * len.toNat) := by
  refine Nat.eq_of_testBit_eq fun p => ?_
  rw [testBit_le, Nat.testBit_mod_two_pow, BitVec.testBit_toNat]
  by_cases h : p < 8 * len.toNat
  · simp [frameBitLsb_frameOf data h, h]
  · have absent : (frameOf len data).length ≤ p / 8 := by rw [frameOf_length]; omega
    simp [frameBitLsb, List.getElem?_eq_none absent, h]

/-! ## The operations -/

theorem exec_b2bMsb (len : BitVec 7) (s : State) : exec (.b2bMsb len data) s = .next { s with
    pending := s.pending.tail
    responses := s.responses ++ [codecResponse (bytesToBits .msb (frameOf len data))] } :=
  exec_eq _ s

theorem exec_b2bLsb (len : BitVec 7) (s : State) : exec (.b2bLsb len data) s = .next { s with
    pending := s.pending.tail
    responses := s.responses ++ [codecResponse (bytesToBits .lsb (frameOf len data))] } :=
  exec_eq _ s

/-- Up to 8 bytes the ports carry the string whole (10_state.md R22). -/
theorem codecFields_toNat (order : ByteOrder) (h : len.toNat ≤ 8) :
    (stringFields (bytesToBits order (frameOf len data))).1.toNat = 8 * len.toNat ∧
    (stringFields (bytesToBits order (frameOf len data))).2.toNat = val (bytesToBits order (frameOf len data)) ∧
    (stringFields (bytesToBits order (frameOf len data))).2.toNat < 2 ^ (8 * len.toNat) := by
  obtain ⟨length, value⟩ := stringFields_toNat (bytesToBits_frameOf_length_le order data (frameLenLegal_iff.mpr h))
  have bound := val_lt (bytesToBits order (frameOf len data))
  rw [bytesToBits_length, frameOf_length] at length bound
  exact ⟨length, value, value ▸ bound⟩

end FrameOnDataPort

end Sys2Proof.Machine
end

section
/-! The statements of 40_bitstring_codec.md. -/
namespace Sys2Proof.Proofs
open Sys2Proof.Machine

/-- Settles O25: `BITS` is the big-endian integer, whose bits from the top are the MSB positions. -/
theorem b2bMsbReturnsBytesInOrder : Obligations.B2bMsbReturnsBytesInOrder := by
  intro len data s hlen
  obtain ⟨hn, hw, hlt⟩ := codecFields_toNat data .msb hlen
  refine ⟨_, _, hn, hlt, fun j hj => ?_, exec_b2bMsb data len s⟩
  have bit := testBit_be (f := frameOf len data) (p := j) (by rwa [frameOf_length])
  rw [frameOf_length] at bit
  rw [← BitVec.testBit_toNat, hw, val_bytesToBits_msb, bit, frameBitMsb, frameOf_getD data (by omega)]

/-- Settles O26: `BITS` is the little-endian integer, whose bits from the bottom are the LSB positions. -/
theorem b2bLsbReturnsBytesReversed : Obligations.B2bLsbReturnsBytesReversed := by
  intro len data s hlen
  obtain ⟨hn, hw, hlt⟩ := codecFields_toNat data .lsb hlen
  refine ⟨_, _, hn, hlt, fun j hj => ?_, exec_b2bLsb data len s⟩
  have byte : (8 * len.toNat - 1 - j) / 8 = len.toNat - 1 - j / 8 := by omega
  have bit : (8 * len.toNat - 1 - j) % 8 = 7 - j % 8 := by omega
  rw [← BitVec.testBit_toNat, hw, val_bytesToBits_lsb, testBit_le, frameBitLsb, byte, bit,
    frameOf_getD data (by omega)]

/-- Settles O27: the two strings spell the two integers, and the bytes of the little-endian one stand in `DATA`. -/
theorem codecReturnsFrameIntegers : Obligations.CodecReturnsFrameIntegers := by
  intro len data s hlen
  obtain ⟨hn, hbig, -⟩ := codecFields_toNat data .msb hlen
  obtain ⟨hn', hlittle, -⟩ := codecFields_toNat data .lsb hlen
  rw [val_bytesToBits_msb] at hbig
  rw [val_bytesToBits_lsb] at hlittle
  refine ⟨_, _, _, hn, hbig, hlittle, hlittle.trans (le_frameOf data len), exec_b2bMsb data len s, ?_⟩
  rw [BitVec.eq_of_toNat_eq (hn.trans hn'.symm)]
  exact exec_b2bLsb data len s

/-- Settles O28: one byte and its 8 characters determine each other, and so byte by byte the frame and its string. -/
theorem codecIsBijection : Obligations.CodecIsBijection :=
  ⟨fun len data s _ => ⟨exec_b2bMsb data len s, exec_b2bLsb data len s⟩,
    fun order => ⟨bytesToBits_length order, fun _ _ h => bytesToBits_injective order h,
      fun _ _ => exists_bytesToBits_eq order⟩⟩

/-- Settles O30: reversing the frame swaps the byte orders, reversing the string also reverses each byte's bits. -/
theorem codecReversalIdentities : Obligations.CodecReversalIdentities :=
  fun b => ⟨bytesToBits_lsb_of_reverse b, (bytesToBits_lsb b).symm, bytesToBits_msb_reverse b,
    bytesToBits_lsb_reverse b⟩

/-- Settles O29: the frame of `LEN` = 0 has no bytes. -/
theorem emptyFrameGivesEmptyString : Obligations.EmptyFrameGivesEmptyString :=
  fun data s => ⟨exec_b2bMsb data 0 s, exec_b2bLsb data 0 s⟩

end Sys2Proof.Proofs
end

section
/-!
SUPPORT. The range conditions of 41_field_extractor.md section 6: an extraction succeeds exactly on a legal span, and
outside it every operation that extracts ends in `RANGE_ERROR`.
-/
namespace Sys2Proof.Machine

/-! ## Legal spans -/

/-- The MSB condition without subtraction, as the extractor tests it (41_field_extractor.md R87, R94). -/
theorem msbLegal_iff {total s L : Nat} : MsbLegal total s L ↔ (1 ≤ L ∧ L ≤ 64) ∧ s < total ∧ L ≤ s + 1 := by
  unfold MsbLegal
  omega

theorem extractLsb_eq_some_iff_legal {f : Frame} {s L : Nat} {e : Extracted} :
    extractLsb f s L = some e ↔ LsbLegal (8 * f.length) s L ∧ e = extractedOf L (rawLsb f s L) := by
  rw [extractLsb_eq_some, LsbLegal]
  tauto

theorem extractMsb_eq_some_iff_legal {f : Frame} {s L : Nat} {e : Extracted} :
    extractMsb f s L = some e ↔ MsbLegal (8 * f.length) s L ∧ e = extractedOf L (rawMsb f s L) := by
  rw [extractMsb_eq_some, msbLegal_iff]
  exact and_assoc.symm

theorem extractString_eq_some_iff_legal {S : BitString} {s L : Nat} {e : Extracted} :
    extractString S s L = some e ↔ MsbLegal S.length s L ∧ e = extractedOf L (rawString S s L) := by
  rw [extractString_eq_some, msbLegal_iff]
  exact and_assoc.symm

theorem extractLsb_of_not_legal {f : Frame} {s L : Nat} (h : ¬ LsbLegal (8 * f.length) s L) :
    extractLsb f s L = none :=
  Option.eq_none_iff_forall_ne_some.mpr fun _ he => h (extractLsb_eq_some_iff_legal.mp he).1

theorem extractMsb_of_not_legal {f : Frame} {s L : Nat} (h : ¬ MsbLegal (8 * f.length) s L) :
    extractMsb f s L = none :=
  Option.eq_none_iff_forall_ne_some.mpr fun _ he => h (extractMsb_eq_some_iff_legal.mp he).1

theorem extractString_of_not_legal {S : BitString} {s L : Nat} (h : ¬ MsbLegal S.length s L) :
    extractString S s L = none :=
  Option.eq_none_iff_forall_ne_some.mpr fun _ he => h (extractString_eq_some_iff_legal.mp he).1

/-! ## The operations that extract -/

section Operations
variable (len : BitVec 7) (data : Word64) (start bits : BitVec 8) (scale offset : Word64) (s : State)

theorem exec_extLsb : exec (.extLsb len data start bits) s =
    answerExtraction (extractLsb (frameOf len data) start.toNat bits.toNat) s := rfl

theorem exec_extMsb : exec (.extMsb len data start bits) s =
    answerExtraction (extractMsb (frameOf len data) start.toNat bits.toNat) s := rfl

theorem exec_xbsMsb : exec (.xbsMsb len data start bits) s =
    answerExtraction (extractString (stringOf len data) start.toNat bits.toNat) s := rfl

theorem exec_decLsb : exec (.decLsb len data start bits scale offset) s =
    answerDecode (.decLsb len data start bits scale offset)
      (extractLsb (frameOf len data) start.toNat bits.toNat) scale offset s := rfl

theorem exec_decMsb : exec (.decMsb len data start bits scale offset) s =
    answerDecode (.decMsb len data start bits scale offset)
      (extractMsb (frameOf len data) start.toNat bits.toNat) scale offset s := rfl

end Operations

/-! ## The operations outside their range -/

section OutOfRange
variable {len : BitVec 7} {start bits : BitVec 8} (data scale offset : Word64) (s : State)

theorem exec_extLsb_of_not_legal (h : ¬ LsbLegal (8 * len.toNat) start.toNat bits.toNat) :
    exec (.extLsb len data start bits) s = raise .rangeError s := by
  rw [← frameOf_length len data] at h
  rw [exec_extLsb, extractLsb_of_not_legal h, answerExtraction_none]

theorem exec_decLsb_of_not_legal (h : ¬ LsbLegal (8 * len.toNat) start.toNat bits.toNat) :
    exec (.decLsb len data start bits scale offset) s = raise .rangeError s := by
  rw [← frameOf_length len data] at h
  rw [exec_decLsb, extractLsb_of_not_legal h, answerDecode_none]

theorem exec_extMsb_of_not_legal (h : ¬ MsbLegal (8 * len.toNat) start.toNat bits.toNat) :
    exec (.extMsb len data start bits) s = raise .rangeError s := by
  rw [← frameOf_length len data] at h
  rw [exec_extMsb, extractMsb_of_not_legal h, answerExtraction_none]

theorem exec_decMsb_of_not_legal (h : ¬ MsbLegal (8 * len.toNat) start.toNat bits.toNat) :
    exec (.decMsb len data start bits scale offset) s = raise .rangeError s := by
  rw [← frameOf_length len data] at h
  rw [exec_decMsb, extractMsb_of_not_legal h, answerDecode_none]

theorem exec_xbsMsb_of_not_legal (h : ¬ MsbLegal len.toNat start.toNat bits.toNat) :
    exec (.xbsMsb len data start bits) s = raise .rangeError s := by
  rw [← stringOf_length len data] at h
  rw [exec_xbsMsb, extractString_of_not_legal h, answerExtraction_none]

/-- Where no range condition can hold, all five operations that extract raise `RangeError`. -/
theorem exec_of_no_legal_span (hLsb : ¬ LsbLegal (8 * len.toNat) start.toNat bits.toNat)
    (hMsb : ¬ MsbLegal (8 * len.toNat) start.toNat bits.toNat)
    (hString : ¬ MsbLegal len.toNat start.toNat bits.toNat) :
    ∀ i ∈ [Instr.extMsb len data start bits, .extLsb len data start bits, .xbsMsb len data start bits,
      .decMsb len data start bits scale offset, .decLsb len data start bits scale offset],
      exec i s = raise .rangeError s := by
  simp only [List.forall_mem_cons]
  exact ⟨exec_extMsb_of_not_legal data s hMsb, exec_extLsb_of_not_legal data s hLsb,
    exec_xbsMsb_of_not_legal data s hString, exec_decMsb_of_not_legal data scale offset s hMsb,
    exec_decLsb_of_not_legal data scale offset s hLsb, nofun⟩

end OutOfRange

end Sys2Proof.Machine
end

section
/-!
SUPPORT. Extractions inside their range: the bits of the raw value (41_field_extractor.md R83, R86, R94), the bits of
`DATA` they are, and the response that carries them (R85).
-/
namespace Sys2Proof.Machine

/-! ## The bits of the raw value -/

/-- Weights counted up: bit `k` is what step `k` read. -/
theorem testBit_gather_up (L k : Nat) (source : Nat → Bool) :
    (gather L source fun i => i).testBit k = (decide (k < L) && source k) := by
  rw [Bool.eq_iff_iff, testBit_gather, Bool.and_eq_true, decide_eq_true_iff]
  exact ⟨fun ⟨_, hi, hw, hs⟩ => hw ▸ ⟨hi, hs⟩, fun ⟨hk, hs⟩ => ⟨k, hk, rfl, hs⟩⟩

/-- Weights counted down: bit `k` is what step `L - 1 - k` read. -/
theorem testBit_gather_down (L k : Nat) (source : Nat → Bool) :
    (gather L source fun i => L - 1 - i).testBit k = (decide (k < L) && source (L - 1 - k)) := by
  rw [Bool.eq_iff_iff, testBit_gather, Bool.and_eq_true, decide_eq_true_iff]
  constructor
  · rintro ⟨i, hi, rfl, hs⟩
    have step : L - 1 - (L - 1 - i) = i := by omega
    exact ⟨by omega, by rwa [step]⟩
  · exact fun ⟨hk, hs⟩ => ⟨L - 1 - k, by omega, by omega, hs⟩

/-- Counted from the top bit, the steps stand in their order. -/
theorem testBit_gather_down_of_lt {L i : Nat} (h : i < L) (source : Nat → Bool) :
    (gather L source fun i => L - 1 - i).testBit (L - 1 - i) = source i := by
  have bit : L - 1 - i < L := by omega
  have step : L - 1 - (L - 1 - i) = i := by omega
  rw [testBit_gather_down, decide_eq_true bit, Bool.true_and, step]

theorem testBit_rawLsb (f : Frame) (s L k : Nat) :
    (rawLsb f s L).testBit k = (decide (k < L) && frameBitLsb f (s + k)) :=
  testBit_gather_up L k _

theorem testBit_rawMsb (f : Frame) (s L k : Nat) :
    (rawMsb f s L).testBit k = (decide (k < L) && frameBitMsb f (s - (L - 1 - k))) :=
  testBit_gather_down L k _

theorem testBit_rawMsb_of_lt (f : Frame) (s : Nat) {L i : Nat} (h : i < L) :
    (rawMsb f s L).testBit (L - 1 - i) = frameBitMsb f (s - i) :=
  testBit_gather_down_of_lt h _

theorem testBit_rawString_of_lt (S : BitString) (s : Nat) {L i : Nat} (h : i < L) :
    (rawString S s L).testBit (L - 1 - i) = stringBit S (s - i) :=
  testBit_gather_down_of_lt h _

/-! ## The operand's bits on `DATA` -/

section OperandBits
variable {len : BitVec 7} (data : Word64) {p : Nat}

theorem frameBitLsb_frameOf_eq_byteBit (h : p < 8 * len.toNat) :
    frameBitLsb (frameOf len data) p = (data.extractLsb' (8 * (p / 8)) 8).getLsbD (p % 8) := by
  rw [frameBitLsb, frameOf_getD data (by omega)]

theorem frameBitMsb_frameOf_eq_byteBit (h : p < 8 * len.toNat) :
    frameBitMsb (frameOf len data) p = (data.extractLsb' (8 * (p / 8)) 8).getLsbD (7 - p % 8) := by
  rw [frameBitMsb, frameOf_getD data (by omega)]

theorem stringBit_stringOf (h : p < len.toNat) :
    stringBit (stringOf len data) p = data.getLsbD (len.toNat - 1 - p) := by
  rw [stringBit, List.getD_eq_getElem?_getD, stringOf_getElem? data h, Option.getD_some]

end OperandBits

/-! ## The response that carries a field -/

/-- The ports carry the field's length and its raw value, the raw value twice (41_field_extractor.md R85). -/
theorem exists_extractedResponse_eq {L raw : Nat} (hL : L ≤ 64) (hraw : raw < 2 ^ L) :
    ∃ (n : BitVec 7) (w : Word64), n.toNat = L ∧ w.toNat = raw ∧
      extractedResponse (extractedOf L raw) = { status := .ok, raw := some w, litLen := some n, lit := some w } := by
  obtain ⟨length, value⟩ := stringFields_toNat (S := str L raw) (by rwa [str_length])
  rw [str_length] at length
  rw [val_str_of_lt hraw] at value
  refine ⟨_, _, length, value, ?_⟩
  simp only [extractedResponse, extractedOf_raw, extractedOf_literal, stringFields, val_str_of_lt hraw]

section InRange
variable {len : BitVec 7} {start bits : BitVec 8} (data : Word64) (s : State)

theorem exec_extLsb_of_legal (h : LsbLegal (8 * len.toNat) start.toNat bits.toNat) :
    exec (.extLsb len data start bits) s = answer (extractedResponse
      (extractedOf bits.toNat (rawLsb (frameOf len data) start.toNat bits.toNat))) s := by
  rw [← frameOf_length len data] at h
  rw [exec_extLsb, extractLsb_eq_some_iff_legal.mpr ⟨h, rfl⟩, answerExtraction_some]

theorem exec_extMsb_of_legal (h : MsbLegal (8 * len.toNat) start.toNat bits.toNat) :
    exec (.extMsb len data start bits) s = answer (extractedResponse
      (extractedOf bits.toNat (rawMsb (frameOf len data) start.toNat bits.toNat))) s := by
  rw [← frameOf_length len data] at h
  rw [exec_extMsb, extractMsb_eq_some_iff_legal.mpr ⟨h, rfl⟩, answerExtraction_some]

theorem exec_xbsMsb_of_legal (h : MsbLegal len.toNat start.toNat bits.toNat) :
    exec (.xbsMsb len data start bits) s = answer (extractedResponse
      (extractedOf bits.toNat (rawString (stringOf len data) start.toNat bits.toNat))) s := by
  rw [← stringOf_length len data] at h
  rw [exec_xbsMsb, extractString_eq_some_iff_legal.mpr ⟨h, rfl⟩, answerExtraction_some]

end InRange

/-- A field's raw value fits the field, and its literal spells it in `L` characters, most significant first
(41_field_extractor.md R85, R97). -/
theorem extractedOf_spells {L raw : Nat} (h : raw < 2 ^ L) :
    (extractedOf L raw).raw < 2 ^ L ∧ (extractedOf L raw).literal.length = L ∧
      val (extractedOf L raw).literal = (extractedOf L raw).raw ∧
      ∀ j < L, (extractedOf L raw).literal[j]? = some ((extractedOf L raw).raw.testBit (L - 1 - j)) :=
  ⟨h, str_length L raw, val_str_of_lt h, fun _ => str_getElem? raw⟩

end Sys2Proof.Machine
end

section
/-!
SUPPORT. Closed forms of the extractions (41_field_extractor.md R84, R88) and what relates the two modes and the
bit-string path (R91, R93): the equations of raw values, bit by bit, and the literals as slices of the frame's strings.
-/
namespace Sys2Proof.Machine

/-! ## Slices of a string and reversed numbers -/

theorem drop_take_getElem? (S : BitString) (lo : Nat) {L j : Nat} (h : j < L) :
    ((S.drop lo).take L)[j]? = S[lo + j]? := by
  rw [List.getElem?_take_of_lt h, List.getElem?_drop]

theorem drop_take_length {S : BitString} {lo L : Nat} (h : lo + L ≤ S.length) : ((S.drop lo).take L).length = L := by
  rw [List.length_take, List.length_drop]
  omega

/-- A string of `L` characters with the bits of `v` from the top down is `str L v`. -/
theorem str_eq_of_getElem? {L v : Nat} {S : BitString} (hlen : S.length = L)
    (h : ∀ j < L, S[j]? = some (v.testBit (L - 1 - j))) : str L v = S := by
  refine List.ext_getElem? fun j => ?_
  rcases Nat.lt_or_ge j L with hj | hj
  · rw [str_getElem? v hj, h j hj]
  · rw [List.getElem?_eq_none (by rwa [str_length]), List.getElem?_eq_none (by rwa [hlen])]

/-- Bit `k` of the number a string spells is character `k` from its end. -/
theorem getElem?_eq_testBit_val {S : BitString} {k : Nat} (h : k < S.length) :
    S[S.length - 1 - k]? = some ((val S).testBit k) := by
  have spelled := str_getElem? (val S) (L := S.length) (j := S.length - 1 - k) (by omega)
  have bit : S.length - 1 - (S.length - 1 - k) = k := by omega
  rwa [str_val, bit] at spelled

theorem bitrev_lt (L v : Nat) : bitrev L v < 2 ^ L := by
  simpa [bitrev] using val_lt (str L v).reverse

theorem testBit_bitrev (L v k : Nat) : (bitrev L v).testBit k = (decide (k < L) && v.testBit (L - 1 - k)) := by
  by_cases h : k < L
  · have length : (str L v).reverse.length = L := by rw [List.length_reverse, str_length]
    have char := getElem?_eq_testBit_val (S := (str L v).reverse) (k := k) (by rwa [length])
    have index : L - 1 - (L - 1 - k) = k := by omega
    rw [length, List.getElem?_reverse (by rw [str_length]; omega), str_length, index, str_getElem? v h] at char
    rw [decide_eq_true h, Bool.true_and]
    exact (Option.some.inj char).symm
  · have small : bitrev L v < 2 ^ k := (bitrev_lt L v).trans_le (Nat.pow_le_pow_right (by omega) (by omega))
    rw [Nat.testBit_lt_two_pow small, decide_eq_false h, Bool.false_and]

/-! ## LSB mode (R84) -/

/-- The barrel shifter: shift the little-endian frame right and mask. -/
theorem rawLsb_eq_shift_mask (f : Frame) (s L : Nat) : rawLsb f s L = (le f >>> s) &&& (2 ^ L - 1) := by
  refine Nat.eq_of_testBit_eq fun k => ?_
  rw [testBit_rawLsb, Nat.testBit_and, Nat.testBit_shiftRight, testBit_le, Nat.testBit_two_pow_sub_one,
    Bool.and_comm]

theorem str_rawLsb_eq_slice {f : Frame} {s L : Nat} (h : s + L ≤ 8 * f.length) :
    str L (rawLsb f s L) = ((bytesToBits .lsb f).drop (8 * f.length - s - L)).take L := by
  refine str_eq_of_getElem? (drop_take_length (by rw [bytesToBits_length]; omega)) fun j hj => ?_
  have index : 8 * f.length - s - L + j = 8 * f.length - 1 - (s + (L - 1 - j)) := by omega
  have bit : L - 1 - j < L := by omega
  rw [drop_take_getElem? _ _ hj, index, bytesToBits_lsb_getElem? (by omega), testBit_rawLsb, decide_eq_true bit,
    Bool.true_and]

/-! ## MSB mode (R88) -/

/-- The reversed barrel shifter: shift the big-endian frame right until position `s` is bit 0, mask, reverse. -/
theorem rawMsb_eq_bitrev_shift_mask {f : Frame} {s L : Nat} (hs : s < 8 * f.length) (hL : L ≤ s + 1) :
    rawMsb f s L = bitrev L ((be f >>> (8 * f.length - 1 - s)) &&& (2 ^ L - 1)) := by
  refine Nat.eq_of_testBit_eq fun k => ?_
  rw [testBit_rawMsb, testBit_bitrev]
  by_cases hk : k < L
  · have mask : L - 1 - k < L := by omega
    have position : 8 * f.length - 1 - s + (L - 1 - k) = 8 * f.length - 1 - (s - (L - 1 - k)) := by omega
    rw [Nat.testBit_and, Nat.testBit_shiftRight, Nat.testBit_two_pow_sub_one, decide_eq_true mask, Bool.and_true,
      position, testBit_be (by omega)]
  · rw [decide_eq_false hk, Bool.false_and, Bool.false_and]

theorem str_rawMsb_eq_slice_reverse {f : Frame} {s L : Nat} (hs : s < 8 * f.length) (hL : L ≤ s + 1) :
    str L (rawMsb f s L) = (((bytesToBits .msb f).drop (s + 1 - L)).take L).reverse := by
  have length : (((bytesToBits .msb f).drop (s + 1 - L)).take L).length = L :=
    drop_take_length (by rw [bytesToBits_length]; omega)
  refine str_eq_of_getElem? (by rw [List.length_reverse, length]) fun j hj => ?_
  have index : s + 1 - L + (L - 1 - j) = s - j := by omega
  rw [List.getElem?_reverse (by rwa [length]), length, drop_take_getElem? _ _ (by omega), index,
    bytesToBits_msb_getElem? (by omega), testBit_rawMsb_of_lt f s hj]

/-- Reversing every byte's bits swaps the two numberings. -/
theorem frameBitLsb_brev8 (f : Frame) (p : Nat) : frameBitLsb (brev8 f) p = frameBitMsb f p := by
  have bit : p % 8 < 8 := Nat.mod_lt p (by decide)
  have byte : (brev8 f).getD (p / 8) 0 = BitVec.ofNat 8 (bitrev 8 (f.getD (p / 8) 0).toNat) :=
    List.getD_map f 0 fun b : Byte => BitVec.ofNat 8 (bitrev 8 b.toNat)
  rw [frameBitLsb, frameBitMsb, byte, BitVec.getLsbD_ofNat, testBit_bitrev, decide_eq_true bit, Bool.true_and,
    Bool.true_and, BitVec.testBit_toNat]

/-- The walk backward from `s` reads the span that LSB mode reads forward from its low end. -/
theorem rawMsb_eq_rawLsb_brev8 (f : Frame) {s L : Nat} (hL : L ≤ s + 1) :
    rawMsb f s L = rawLsb (brev8 f) (s + 1 - L) L := by
  refine Nat.eq_of_testBit_eq fun k => ?_
  rw [testBit_rawMsb, testBit_rawLsb, frameBitLsb_brev8]
  by_cases hk : k < L
  · have position : s - (L - 1 - k) = s + 1 - L + k := by omega
    rw [position]
  · rw [decide_eq_false hk, Bool.false_and, Bool.false_and]

theorem extractMsb_eq_extractLsb_brev8 (f : Frame) {s L : Nat} (hL : L ≤ s + 1) :
    extractMsb f s L = extractLsb (brev8 f) (s + 1 - L) L := by
  have fits : msbSpanFits (8 * f.length) s L = lsbSpanFits (8 * f.length) (s + 1 - L) L := by
    rw [Bool.eq_iff_iff, msbSpanFits_iff, lsbSpanFits_iff]
    omega
  rw [extractMsb, extractLsb, brev8_length, fits, rawMsb_eq_rawLsb_brev8 f hL]

/-! ## One bit (R91) -/

theorem frameBitLsb_mirror (f : Frame) (p : Nat) : frameBitLsb f (8 * (p / 8) + 7 - p % 8) = frameBitMsb f p := by
  have back : 8 * ((8 * (p / 8) + 7 - p % 8) / 8) + 7 - (8 * (p / 8) + 7 - p % 8) % 8 = p := by omega
  rw [← frameBitMsb_mirror, back]

theorem extractMsb_one (f : Frame) (s : Nat) :
    extractMsb f s 1 = extractLsb f (8 * (s / 8) + 7 - s % 8) 1 := by
  have fits : msbSpanFits (8 * f.length) s 1 = lsbSpanFits (8 * f.length) (8 * (s / 8) + 7 - s % 8) 1 := by
    rw [Bool.eq_iff_iff, msbSpanFits_iff, lsbSpanFits_iff]
    omega
  have raw : rawMsb f s 1 = rawLsb f (8 * (s / 8) + 7 - s % 8) 1 := by
    simp [rawMsb, rawLsb, gather, frameBitLsb_mirror]
  rw [extractMsb, extractLsb, fits, raw]

/-! ## The bit-string path (R93) -/

/-- The frame's string has the frame's bits at its MSB positions, and none beyond. -/
theorem stringBit_bytesToBits_msb (f : Frame) (p : Nat) : stringBit (bytesToBits .msb f) p = frameBitMsb f p := by
  rcases Nat.lt_or_ge p (8 * f.length) with hp | hp
  · rw [stringBit, List.getD_eq_getElem?_getD, bytesToBits_msb_getElem? hp, Option.getD_some]
  · rw [stringBit, List.getD_eq_default _ _ (by rwa [bytesToBits_length]), frameBitMsb,
      List.getD_eq_default _ _ (by omega)]
    exact BitVec.getLsbD_zero.symm

theorem extractString_bytesToBits_msb (f : Frame) (s L : Nat) :
    extractString (bytesToBits .msb f) s L = extractMsb f s L := by
  simp only [extractString, extractMsb, bytesToBits_length, rawString, rawMsb, stringBit_bytesToBits_msb]

/-- The frame's MSB-order string is carried by its length and its big-endian integer (30_encoding.md R55). -/
theorem stringOf_be_frameOf {len : BitVec 7} (data : Word64) (h : len.toNat ≤ 8) :
    stringOf (BitVec.ofNat 7 (8 * len.toNat)) (BitVec.ofNat 64 (be (frameOf len data))) =
      bytesToBits .msb (frameOf len data) := by
  have carried := stringOf_stringFields (bytesToBits_frameOf_length_le .msb data (frameLenLegal_iff.mpr h))
  rwa [stringFields, val_bytesToBits_msb, bytesToBits_length, frameOf_length] at carried

end Sys2Proof.Machine
end

section
/-! The statements of 41_field_extractor.md. -/
namespace Sys2Proof.Proofs
open Sys2Proof.Machine

/-- Settles O32. -/
theorem spanOutsideOperandIsRangeError : Obligations.SpanOutsideOperandIsRangeError := by
  intro len data start bits scale offset s
  exact ⟨fun h => ⟨exec_extLsb_of_not_legal data s h, exec_decLsb_of_not_legal data scale offset s h⟩,
    fun h => ⟨exec_extMsb_of_not_legal data s h, exec_decMsb_of_not_legal data scale offset s h⟩,
    exec_xbsMsb_of_not_legal data s⟩

/-- Settles O31: no range condition holds for such a length. -/
theorem bitLengthOutsideOneToSixtyFourIsRangeError : Obligations.BitLengthOutsideOneToSixtyFourIsRangeError := by
  intro len data start bits scale offset s h
  refine exec_of_no_legal_span data scale offset s ?_ ?_ ?_ <;> rintro ⟨hpos, hmax, -⟩ <;> omega

/-- Settles O33: the walk forward reads bit `startBit + k` for bit `k`, and nothing from bit `bitLength` on. -/
theorem extLsbReturnsFieldBitsOrRangeError : Obligations.ExtLsbReturnsFieldBitsOrRangeError := by
  intro len data start bits s _
  refine ⟨fun h => ?_, exec_extLsb_of_not_legal data s⟩
  have ⟨_, hmax, hspan⟩ := h
  obtain ⟨n, w, hn, hw, response⟩ :=
    exists_extractedResponse_eq hmax (rawLsb_lt (frameOf len data) start.toNat bits.toNat)
  refine ⟨n, w, hn, fun k _ => ?_, by rw [exec_extLsb_of_legal data s h, response]; rfl⟩
  rw [← BitVec.testBit_toNat, hw, testBit_rawLsb]
  by_cases hk : k < bits.toNat
  · rw [frameBitLsb_frameOf_eq_byteBit data (by omega)]
  · rw [decide_eq_false hk, Bool.false_and, Bool.false_and]

/-- Settles O34: step `i` of the walk backward, at MSB position `startBit - i`, gives bit `bitLength - 1 - i`. -/
theorem extMsbReturnsFieldBitsOrRangeError : Obligations.ExtMsbReturnsFieldBitsOrRangeError := by
  intro len data start bits s _
  refine ⟨fun h => ?_, exec_extMsb_of_not_legal data s⟩
  obtain ⟨⟨-, hmax⟩, hstart, -⟩ := msbLegal_iff.mp h
  have fits := rawMsb_lt (frameOf len data) start.toNat bits.toNat
  obtain ⟨n, w, hn, hw, response⟩ := exists_extractedResponse_eq hmax fits
  refine ⟨n, w, hn, hw ▸ fits, fun i hi => ?_, by rw [exec_extMsb_of_legal data s h, response]; rfl⟩
  rw [← BitVec.testBit_toNat, hw, testBit_rawMsb_of_lt _ _ hi, frameBitMsb_frameOf_eq_byteBit data (by omega)]

/-- Settles O35: as EXT.MSB, with the characters of the string for the frame's bits. -/
theorem xbsMsbReturnsFieldBitsOrRangeError : Obligations.XbsMsbReturnsFieldBitsOrRangeError := by
  intro len data start bits s _
  refine ⟨fun h => ?_, exec_xbsMsb_of_not_legal data s⟩
  obtain ⟨⟨-, hmax⟩, hstart, -⟩ := msbLegal_iff.mp h
  have fits := rawString_lt (stringOf len data) start.toNat bits.toNat
  obtain ⟨n, w, hn, hw, response⟩ := exists_extractedResponse_eq hmax fits
  refine ⟨n, w, hn, hw ▸ fits, fun i hi => ?_, by rw [exec_xbsMsb_of_legal data s h, response]; rfl⟩
  rw [← BitVec.testBit_toNat, hw, testBit_rawString_of_lt _ _ hi, stringBit_stringOf data (by omega)]

/-- Settles O36. -/
theorem lsbModeIsShiftAndMask : Obligations.LsbModeIsShiftAndMask := by
  intro f s L h
  have ⟨_, _, hspan⟩ := h
  rw [extractLsb_eq_some_iff_legal.mpr ⟨h, rfl⟩, extractedOf, str_rawLsb_eq_slice hspan, rawLsb_eq_shift_mask]

/-- Settles O37: each closed form has the raw value's bits, and the reversed slice its characters. -/
theorem msbModeIsReversedShiftAndMask : Obligations.MsbModeIsReversedShiftAndMask := by
  intro f s L h
  obtain ⟨-, hs, hL⟩ := msbLegal_iff.mp h
  refine ⟨?_, extractMsb_eq_extractLsb_brev8 f hL⟩
  rw [extractMsb_eq_some_iff_legal.mpr ⟨h, rfl⟩, extractedOf, str_rawMsb_eq_slice_reverse hs hL,
    rawMsb_eq_bitrev_shift_mask hs hL]

/-- Settles O38: the frame's string has the frame's bits at the same positions, and the ports carry it whole. -/
theorem bitStringPathAgreesWithFramePath : Obligations.BitStringPathAgreesWithFramePath := by
  refine ⟨extractString_bytesToBits_msb, fun len data start bits s hlen => ?_, fun c hop hord => ?_⟩
  · rw [exec_xbsMsb, stringOf_be_frameOf data hlen, extractString_bytesToBits_msb, exec_extMsb]
  · exact (decode_isError_iff c).mpr (.inr (.inr (.inl ⟨hop, hord⟩)))

/-- Settles O39: both modes read the one physical bit, which lies in the frame for both or for neither. -/
theorem singleBitMsbIsMirroredLsb : Obligations.SingleBitMsbIsMirroredLsb := by
  intro len data start s
  have mirror : (BitVec.ofNat 8 (8 * (start.toNat / 8) + 7 - start.toNat % 8)).toNat =
      8 * (start.toNat / 8) + 7 - start.toNat % 8 := by
    rw [BitVec.toNat_ofNat]
    omega
  have one : (1 : BitVec 8).toNat = 1 := rfl
  rw [exec_extMsb, exec_extLsb, mirror, one, extractMsb_one]

/-- Settles O41: every extraction that succeeds returns `extractedOf` of a raw value of `L` bits. -/
theorem rawFitsFieldAndLiteralSpellsIt : Obligations.RawFitsFieldAndLiteralSpellsIt := by
  intro f S s L e h
  obtain ⟨raw, hmax, fits, rfl⟩ : ∃ raw, L ≤ 64 ∧ raw < 2 ^ L ∧ e = extractedOf L raw := by
    rcases h with h | h | h
    · obtain ⟨⟨-, hmax⟩, -, he⟩ := extractLsb_eq_some.mp h
      exact ⟨_, hmax, rawLsb_lt f s L, he⟩
    · obtain ⟨⟨-, hmax⟩, -, he⟩ := extractMsb_eq_some.mp h
      exact ⟨_, hmax, rawMsb_lt f s L, he⟩
    · obtain ⟨⟨-, hmax⟩, -, he⟩ := extractString_eq_some.mp h
      exact ⟨_, hmax, rawString_lt S s L, he⟩
  obtain ⟨hraw, hlen, hval, hchar⟩ := extractedOf_spells fits
  exact ⟨hraw, hmax, hlen, hval, hchar⟩

/-- Settles O40: no span lies in an operand without positions. -/
theorem emptyOperandIsRangeError : Obligations.EmptyOperandIsRangeError := by
  intro data start bits scale offset s
  have zero : (0 : BitVec 7).toNat = 0 := rfl
  refine exec_of_no_legal_span data scale offset s ?_ ?_ ?_
  · rintro ⟨hpos, -, hspan⟩
    omega
  · rw [msbLegal_iff]
    omega
  · rw [msbLegal_iff]
    omega

end Sys2Proof.Proofs
end

section
/-!
SUPPORT. Rounding to nearest, ties to even (42_value_transformer.md R101): which magnitudes are representable, and that
`roundMag` gives the nearest of them. The exact value lies between two neighbours on a grid of `2^d`, and no
representable magnitude off that grid is as near.
-/
namespace Sys2Proof.Machine

/-! ## Representable magnitudes -/

/-- The significand `2^53` stands for `2^52` and one more power of two. -/
theorem evenSignificand_of_le {q : Nat} (hq : q ≤ 2 ^ 53) (heven : q % 2 = 0) (e : Nat) :
    EvenSignificand (q * 2 ^ e) := by
  rcases hq.lt_or_eq with hlt | rfl
  · exact ⟨q, e, hlt, heven, rfl⟩
  · exact ⟨2 ^ 52, e + 1, by decide, by decide, by rw [pow_succ]; ring⟩

theorem EvenSignificand.representable {m : Nat} (h : EvenSignificand m) : Representable m := by
  obtain ⟨q, e, hq, -, hm⟩ := h
  exact ⟨q, e, hq, hm⟩

theorem representable_of_le {q : Nat} (hq : q ≤ 2 ^ 53) (e : Nat) : Representable (q * 2 ^ e) := by
  rcases hq.lt_or_eq with hlt | rfl
  · exact ⟨q, e, hlt, rfl⟩
  · exact (evenSignificand_of_le le_rfl (by decide) e).representable

theorem representable_of_lt {m : Nat} (h : m < 2 ^ 53) : Representable m := ⟨m, 0, h, by rw [pow_zero, mul_one]⟩

theorem representable_two_pow (k : Nat) : Representable (2 ^ k) := ⟨1, k, by decide, (one_mul _).symm⟩

theorem Representable.mul_two_pow {m : Nat} (h : Representable m) (k : Nat) : Representable (m * 2 ^ k) := by
  obtain ⟨q, e, hq, rfl⟩ := h
  exact ⟨q, e + k, hq, by rw [pow_add, mul_assoc]⟩

/-- From `2^(52 + d)` on, the representable magnitudes are multiples of `2^d`. -/
theorem Representable.two_pow_dvd {m d : Nat} (h : Representable m) (hm : 2 ^ (52 + d) ≤ m) : 2 ^ d ∣ m := by
  obtain ⟨q, e, hq, rfl⟩ := h
  have hexp : 52 + d < 53 + e := (Nat.pow_lt_pow_iff_right (by decide : 1 < 2)).mp <| calc
    2 ^ (52 + d) ≤ q * 2 ^ e := hm
    _ < 2 ^ 53 * 2 ^ e := Nat.mul_lt_mul_of_pos_right hq (Nat.two_pow_pos e)
    _ = 2 ^ (53 + e) := (pow_add 2 53 e).symm
  exact (Nat.pow_dvd_pow 2 (by omega)).mul_left q

/-! ## The nearest representable magnitude -/

theorem distance_eq_distance_units (n t m : Nat) : distance n t m = distance n 0 (m * 2 ^ t) := by
  simp [distance]

/-- An exact representable value is the nearest to itself. -/
theorem NearestEven.eq_of_representable {n m : Nat} (h : NearestEven n 0 m) (hn : Representable n) : m = n := by
  obtain ⟨-, nearest, -⟩ := h
  have := nearest n hn
  simp only [distance, pow_zero, mul_one] at this
  omega

/-- Rounding does not pass a representable bound from below. -/
theorem NearestEven.le_of_le {n t m k : Nat} (h : NearestEven n t m) (hk : Representable k) (hn : n ≤ k * 2 ^ t) :
    m ≤ k := by
  obtain ⟨-, nearest, -⟩ := h
  have := nearest k hk
  by_contra hlt
  have := Nat.mul_lt_mul_of_pos_right (not_le.mp hlt) (Nat.two_pow_pos t)
  simp only [distance] at *
  omega

/-- Rounding does not pass a representable bound from above. -/
theorem NearestEven.le_of_ge {n t m k : Nat} (h : NearestEven n t m) (hk : Representable k) (hn : k * 2 ^ t ≤ n) :
    k ≤ m := by
  obtain ⟨-, nearest, -⟩ := h
  have := nearest k hk
  by_contra hlt
  have := Nat.mul_lt_mul_of_pos_right (not_le.mp hlt) (Nat.two_pow_pos t)
  simp only [distance] at *
  omega

/-! ## The steps of `roundMag` -/

/-- The number of low bits that rounding drops. -/
def droppedBits (n t : Nat) : Nat := max t (n.log2 + 1 - 53)

/-- The quotient `q` with remainder `r` by `D`, rounded to nearest, ties to even. -/
def roundedQuotient (q r D : Nat) : Nat := q + (decide (D < 2 * r) || (decide (2 * r = D) && decide (q % 2 = 1))).toNat

/-- The significand after rounding, on the grid of `2^(droppedBits n t)`. -/
def roundedSignificand (n t : Nat) : Nat :=
  roundedQuotient (n / 2 ^ droppedBits n t) (n % 2 ^ droppedBits n t) (2 ^ droppedBits n t)

theorem roundMag_eq (n t : Nat) : roundMag n t = roundedSignificand n t * 2 ^ (droppedBits n t - t) := rfl

theorem le_droppedBits (n t : Nat) : t ≤ droppedBits n t := le_max_left _ _

theorem roundMag_mul_two_pow (n t : Nat) : roundMag n t * 2 ^ t = roundedSignificand n t * 2 ^ droppedBits n t := by
  rw [roundMag_eq, mul_assoc, ← pow_add, Nat.sub_add_cancel (le_droppedBits n t)]

theorem roundedQuotient_cases (q r D : Nat) :
    (roundedQuotient q r D = q ∧ (2 * r < D ∨ 2 * r = D ∧ q % 2 = 0)) ∨
      (roundedQuotient q r D = q + 1 ∧ (D < 2 * r ∨ 2 * r = D ∧ q % 2 = 1)) := by
  by_cases hup : D < 2 * r ∨ 2 * r = D ∧ q % 2 = 1
  · exact .inr ⟨by simp [roundedQuotient, hup], hup⟩
  · exact .inl ⟨by simpa [roundedQuotient] using hup, by omega⟩

/-- No multiple of `D` is nearer to `q * D + r` than the rounded one, and one as near leaves that one even. -/
theorem roundedQuotient_nearest {q r D : Nat} (hr : r < D) (j : Nat) :
    distance (q * D + r) 0 (roundedQuotient q r D * D) ≤ distance (q * D + r) 0 (j * D) ∧
      (distance (q * D + r) 0 (j * D) = distance (q * D + r) 0 (roundedQuotient q r D * D) →
        j ≠ roundedQuotient q r D → roundedQuotient q r D % 2 = 0) := by
  have hnext : (q + 1) * D = q * D + D := by ring
  have hj : j * D + D ≤ q * D ∨ j = q ∨ j = q + 1 ∨ q * D + 2 * D ≤ j * D := by
    rcases lt_trichotomy j q with h | h | h
    · exact .inl (by nlinarith)
    · exact .inr (.inl h)
    · rcases Nat.eq_or_lt_of_le h with h | h
      · exact .inr (.inr (.inl h.symm))
      · exact .inr (.inr (.inr (by nlinarith)))
  simp only [distance, pow_zero, mul_one]
  rcases roundedQuotient_cases q r D with ⟨hq, hrest⟩ | ⟨hq, hrest⟩
  · rw [hq]
    rcases hj with hj | rfl | rfl | hj <;> omega
  · rw [hq]
    rcases hj with hj | rfl | rfl | hj <;> omega

theorem lt_two_pow_droppedBits (n t : Nat) : n < 2 ^ 53 * 2 ^ droppedBits n t := by
  rw [← pow_add]
  calc
    n < 2 ^ (n.log2 + 1) := Nat.lt_log2_self
    _ ≤ 2 ^ (53 + droppedBits n t) := Nat.pow_le_pow_right (by decide) (by unfold droppedBits; omega)

theorem roundedSignificand_le (n t : Nat) : roundedSignificand n t ≤ 2 ^ 53 := by
  have hq : n / 2 ^ droppedBits n t < 2 ^ 53 :=
    Nat.div_lt_of_lt_mul (by rw [mul_comm]; exact lt_two_pow_droppedBits n t)
  unfold roundedSignificand
  rcases roundedQuotient_cases (n / 2 ^ droppedBits n t) (n % 2 ^ droppedBits n t) (2 ^ droppedBits n t) with
    ⟨h, -⟩ | ⟨h, -⟩ <;> omega

theorem roundedSignificand_nearest (n t j : Nat) :
    distance n t (roundMag n t) ≤ distance n 0 (j * 2 ^ droppedBits n t) ∧
      (distance n 0 (j * 2 ^ droppedBits n t) = distance n t (roundMag n t) → j ≠ roundedSignificand n t →
        roundedSignificand n t % 2 = 0) := by
  have hr : n % 2 ^ droppedBits n t < 2 ^ droppedBits n t := Nat.mod_lt n (Nat.two_pow_pos _)
  have key := roundedQuotient_nearest (q := n / 2 ^ droppedBits n t) hr j
  rw [Nat.div_add_mod'] at key
  rwa [distance_eq_distance_units n t, roundMag_mul_two_pow]

/-- A representable magnitude lies on the grid, or below its least point of 53 bits, and then so far below `n` that this
point is nearer. -/
theorem Representable.on_grid_or_below {k : Nat} (hk : Representable k) (n t : Nat) :
    (∃ j, k * 2 ^ t = j * 2 ^ droppedBits n t) ∨
      k * 2 ^ t < 2 ^ 52 * 2 ^ droppedBits n t ∧ 2 ^ 52 * 2 ^ droppedBits n t ≤ n := by
  rcases Nat.eq_or_lt_of_le (le_droppedBits n t) with ht | ht
  · exact .inl ⟨k, by rw [← ht]⟩
  obtain ⟨hlog, hpos⟩ : 52 + droppedBits n t = n.log2 ∧ n.log2 ≠ 0 := by
    unfold droppedBits at *
    omega
  rw [← pow_add]
  rcases Nat.lt_or_ge (k * 2 ^ t) (2 ^ (52 + droppedBits n t)) with hbelow | habove
  · refine .inr ⟨hbelow, ?_⟩
    rw [hlog]
    exact Nat.log2_self_le fun hn => hpos (by rw [hn, Nat.log2_zero])
  · obtain ⟨j, hj⟩ := (hk.mul_two_pow t).two_pow_dvd habove
    exact .inl ⟨j, by rw [hj, mul_comm]⟩

theorem representable_roundMag (n t : Nat) : Representable (roundMag n t) :=
  representable_of_le (roundedSignificand_le n t) _

/-- A representable magnitude is no nearer than the rounded one, and one as near leaves the rounded significand even. -/
theorem distance_roundMag_le {k : Nat} (hk : Representable k) (n t : Nat) :
    distance n t (roundMag n t) ≤ distance n t k ∧
      (distance n t k = distance n t (roundMag n t) → k ≠ roundMag n t → roundedSignificand n t % 2 = 0) := by
  rcases hk.on_grid_or_below n t with ⟨j, hj⟩ | ⟨hbelow, hn⟩
  · rw [distance_eq_distance_units n t k, hj]
    obtain ⟨nearest, tie⟩ := roundedSignificand_nearest n t j
    refine ⟨nearest, fun heq hne => tie heq ?_⟩
    rintro rfl
    rw [← roundMag_mul_two_pow] at hj
    exact hne (Nat.eq_of_mul_eq_mul_right (Nat.two_pow_pos t) hj)
  · obtain ⟨nearest, -⟩ := roundedSignificand_nearest n t (2 ^ 52)
    have hfar : distance n 0 (2 ^ 52 * 2 ^ droppedBits n t) < distance n t k := by
      simp only [distance, pow_zero, mul_one]
      omega
    exact ⟨by omega, fun heq => by omega⟩

/-- `roundMag` rounds to nearest, ties to even. -/
theorem nearestEven_roundMag (n t : Nat) : NearestEven n t (roundMag n t) :=
  ⟨representable_roundMag n t, fun _ hk => (distance_roundMag_le hk n t).1, fun _ hk hne heq =>
    evenSignificand_of_le (roundedSignificand_le n t) ((distance_roundMag_le hk n t).2 heq hne) _⟩

theorem roundMag_of_representable {n : Nat} (h : Representable n) : roundMag n 0 = n :=
  (nearestEven_roundMag n 0).eq_of_representable h

end Sys2Proof.Machine
end

section
/-!
SUPPORT. The words of binary64 and the numbers they carry (42_value_transformer.md R101): every word is packed from its
three fields, and the numbers that have a word are the infinities and the representable magnitudes below `2^1024`.
-/
namespace Sys2Proof.Machine

/-! ## A word by its three fields -/

theorem exists_binary64Word_eq (w : Word64) :
    ∃ neg e fr, e < 2 ^ 11 ∧ fr < 2 ^ 52 ∧ w = binary64Word neg e fr := by
  have he : w.toNat / 2 ^ 52 % 2 ^ 11 < 2 ^ 11 := Nat.mod_lt _ (by decide)
  have hf : w.toNat % 2 ^ 52 < 2 ^ 52 := Nat.mod_lt _ (by decide)
  refine ⟨decide (2 ^ 63 ≤ w.toNat), _, _, he, hf, BitVec.eq_of_toNat_eq ?_⟩
  rw [binary64Word_toNat _ he hf]
  have := w.isLt
  by_cases h : 2 ^ 63 ≤ w.toNat
  · rw [decide_eq_true h, Bool.toNat_true]
    omega
  · rw [decide_eq_false h, Bool.toNat_false]
    omega

/-- A word keeps the low 52 bits of the fraction it is packed from. -/
theorem binary64Word_congr_fraction (neg : Bool) (e : Nat) {fr fr' : Nat} (h : fr % 2 ^ 52 = fr' % 2 ^ 52) :
    binary64Word neg e fr = binary64Word neg e fr' := by
  have : BitVec.ofNat 52 fr = BitVec.ofNat 52 fr' := BitVec.eq_of_toNat_eq (by simpa using h)
  rw [binary64Word, this, binary64Word]

theorem binary64OfWord_eq (w : Word64) : binary64OfWord w =
    if (w.extractLsb' 52 11).toNat = 2047 then
      (if (w.extractLsb' 0 52).toNat = 0 then .inf (w.getLsbD 63) else .nan)
    else if (w.extractLsb' 52 11).toNat = 0 then .fin (w.getLsbD 63) (w.extractLsb' 0 52).toNat
    else .fin (w.getLsbD 63)
      ((2 ^ 52 + (w.extractLsb' 0 52).toNat) * 2 ^ ((w.extractLsb' 52 11).toNat - 1)) := rfl

section Fields
variable (neg : Bool) {e fr : Nat}

theorem binary64Word_sign (he : e < 2 ^ 11) (hf : fr < 2 ^ 52) : (binary64Word neg e fr).getLsbD 63 = neg := by
  rw [← BitVec.testBit_toNat, binary64Word_toNat neg he hf, Nat.testBit_eq_decide_div_mod_eq]
  cases neg <;> simp <;> omega

theorem binary64OfWord_binary64Word (he : e < 2 ^ 11) (hf : fr < 2 ^ 52) :
    binary64OfWord (binary64Word neg e fr) =
      if e = 2047 then (if fr = 0 then .inf neg else .nan)
      else if e = 0 then .fin neg fr
      else .fin neg ((2 ^ 52 + fr) * 2 ^ (e - 1)) := by
  have h1 : (BitVec.ofNat 11 e).toNat = e := by rw [BitVec.toNat_ofNat, Nat.mod_eq_of_lt he]
  have h2 : (BitVec.ofNat 52 fr).toNat = fr := by rw [BitVec.toNat_ofNat, Nat.mod_eq_of_lt hf]
  simp only [binary64OfWord_eq, binary64Word_sign neg he hf, binary64Word_exponent neg he hf,
    binary64Word_fraction neg he hf, h1, h2]

end Fields

theorem isNanWord_iff (w : Word64) : isNanWord w = true ↔ binary64OfWord w = .nan := by
  have he : w.extractLsb' 52 11 = 2047#11 ↔ (w.extractLsb' 52 11).toNat = 2047 := BitVec.toNat_inj.symm
  have hf : w.extractLsb' 0 52 = 0#52 ↔ (w.extractLsb' 0 52).toNat = 0 := BitVec.toNat_inj.symm
  simp only [isNanWord, Bool.and_eq_true, beq_iff_eq, bne_iff_ne, ne_eq, he, hf, binary64OfWord_eq]
  split_ifs <;> simp_all

theorem isNanWord_eq_false_iff {w : Word64} : isNanWord w = false ↔ binary64OfWord w ≠ .nan := by
  rw [← Bool.not_eq_true, isNanWord_iff]

/-! ## The numbers that have a word -/

/-- The values that a word carries: besides NaN and the infinities, the representable magnitudes below `2^1024`. -/
def Binary64.Carried : Binary64 → Prop
  | .nan => True
  | .inf _ => True
  | .fin _ m => Representable m ∧ m < overflowMag

theorem twoPow_le {j k : Nat} (h : j ≤ k) : twoPow j ≤ twoPow k := by
  rw [twoPow_eq, twoPow_eq]
  exact Nat.pow_le_pow_right (by decide) h

theorem two_pow_le_overflowMag {k : Nat} (h : k ≤ 2098) : 2 ^ k ≤ overflowMag := by
  rw [overflowMag_eq, ← twoPow_eq]
  exact twoPow_le h

theorem overflowMag_le_two_pow {k : Nat} (h : 2098 ≤ k) : overflowMag ≤ 2 ^ k := by
  rw [overflowMag_eq, ← twoPow_eq]
  exact twoPow_le h

theorem carried_binary64OfWord (w : Word64) : (binary64OfWord w).Carried := by
  obtain ⟨neg, e, fr, he, hf, rfl⟩ := exists_binary64Word_eq w
  rw [binary64OfWord_binary64Word neg he hf]
  split_ifs with hmax hzero hmin
  · trivial
  · trivial
  · exact ⟨representable_of_lt (by omega), hf.trans (two_pow_lt_overflowMag (by decide))⟩
  · refine ⟨representable_of_le (by omega) _, ?_⟩
    calc
      (2 ^ 52 + fr) * 2 ^ (e - 1) < 2 ^ 53 * 2 ^ (e - 1) :=
        Nat.mul_lt_mul_of_pos_right (by omega) (Nat.two_pow_pos _)
      _ = 2 ^ (53 + (e - 1)) := (pow_add 2 53 _).symm
      _ ≤ overflowMag := two_pow_le_overflowMag (by omega)

/-! ## The word of a finite number -/

/-- A representable magnitude is subnormal, or has a significand of 53 bits. -/
theorem Representable.subnormal_or_normal {m : Nat} (h : Representable m) :
    m < 2 ^ 52 ∨ ∃ fr k, fr < 2 ^ 52 ∧ m = (2 ^ 52 + fr) * 2 ^ k := by
  rcases Nat.lt_or_ge m (2 ^ 52) with hlt | hge
  · exact .inl hlt
  have hlog : 52 ≤ m.log2 := (Nat.le_log2 (by omega)).mpr hge
  obtain ⟨k, hk⟩ := Nat.exists_eq_add_of_le hlog
  have hlow : 2 ^ 52 * 2 ^ k ≤ m := by
    rw [← pow_add, ← hk]
    exact Nat.log2_self_le (by omega)
  have hhigh : m < 2 ^ 53 * 2 ^ k := by
    rw [← pow_add, show 53 + k = m.log2 + 1 by omega]
    exact Nat.lt_log2_self
  obtain ⟨q, rfl⟩ := h.two_pow_dvd (d := k) (by rwa [pow_add])
  rw [mul_comm (2 ^ k)] at *
  have := Nat.le_of_mul_le_mul_right hlow (Nat.two_pow_pos k)
  have := Nat.lt_of_mul_lt_mul_right hhigh
  exact .inr ⟨q - 2 ^ 52, k, by omega, by rw [Nat.add_sub_cancel' ‹_›]⟩

theorem exponentField_of_lt {m : Nat} (h : m < 2 ^ 52) : exponentField m = 0 := by
  rcases Nat.eq_zero_or_pos m with rfl | hm
  · simp [exponentField]
  · have := (Nat.log2_lt hm.ne').mpr h
    unfold exponentField
    omega

theorem exponentField_normal {fr : Nat} (hf : fr < 2 ^ 52) (k : Nat) :
    exponentField ((2 ^ 52 + fr) * 2 ^ k) = k + 1 := by
  have hlog : ((2 ^ 52 + fr) * 2 ^ k).log2 = 52 + k := by
    rw [Nat.log2_eq_iff (by positivity), show 52 + k + 1 = 53 + k by omega, pow_add, pow_add]
    exact ⟨Nat.mul_le_mul_right _ (by omega), Nat.mul_lt_mul_of_pos_right (by omega) (Nat.two_pow_pos k)⟩
  unfold exponentField
  omega

section FiniteWords
variable (nan : Word64) (neg : Bool) {fr : Nat} (hf : fr < 2 ^ 52)
include hf

theorem binary64ToWord_subnormal : binary64ToWord nan (.fin neg fr) = binary64Word neg 0 fr := by
  simp [exponentField_of_lt hf]

theorem binary64ToWord_normal (k : Nat) :
    binary64ToWord nan (.fin neg ((2 ^ 52 + fr) * 2 ^ k)) = binary64Word neg (k + 1) fr := by
  rw [binary64ToWord_fin, exponentField_normal hf, Nat.add_sub_cancel, Nat.mul_div_cancel _ (Nat.two_pow_pos k)]
  exact binary64Word_congr_fraction neg _ (Nat.add_mod_left _ _)

end FiniteWords

/-! ## There and back -/

/-- A word that is no NaN is carried without change. -/
theorem binary64ToWord_binary64OfWord (nan : Word64) {w : Word64} (h : binary64OfWord w ≠ .nan) :
    binary64ToWord nan (binary64OfWord w) = w := by
  obtain ⟨neg, e, fr, he, hf, rfl⟩ := exists_binary64Word_eq w
  rw [binary64OfWord_binary64Word neg he hf] at *
  split_ifs at * with hmax hzero hmin
  · rw [binary64ToWord_inf, hmax, hzero]
  · exact absurd rfl h
  · rw [binary64ToWord_subnormal nan neg hf, hmin]
  · rw [binary64ToWord_normal nan neg hf, Nat.sub_add_cancel (by omega)]

/-- A number that has a word is carried without change. -/
theorem binary64OfWord_binary64ToWord_fin (nan : Word64) (neg : Bool) {m : Nat} (hm : Representable m)
    (hbound : m < overflowMag) : binary64OfWord (binary64ToWord nan (.fin neg m)) = .fin neg m := by
  rcases hm.subnormal_or_normal with hlt | ⟨fr, k, hf, rfl⟩
  · rw [binary64ToWord_subnormal nan neg hlt, binary64OfWord_binary64Word neg (by decide) hlt]
    simp
  · have hk : ¬ 2098 ≤ 52 + k := fun h => hbound.not_ge <| calc
      overflowMag ≤ 2 ^ (52 + k) := overflowMag_le_two_pow h
      _ = 2 ^ 52 * 2 ^ k := pow_add 2 52 k
      _ ≤ (2 ^ 52 + fr) * 2 ^ k := Nat.mul_le_mul_right _ (Nat.le_add_right _ _)
    rw [binary64ToWord_normal nan neg hf, binary64OfWord_binary64Word neg (by omega) hf, if_neg (by omega),
      if_neg (by omega), Nat.add_sub_cancel]

theorem binary64OfWord_binary64ToWord {nan : Word64} (h : isNanWord nan = true) {v : Binary64} (hv : v.Carried) :
    binary64OfWord (binary64ToWord nan v) = v := by
  cases v with
  | nan => exact (isNanWord_iff nan).mp h
  | inf neg => exact binary64OfWord_binary64Word neg (by decide) (by decide)
  | fin neg m =>
    obtain ⟨hm, hbound⟩ := hv
    exact binary64OfWord_binary64ToWord_fin nan neg hm hbound

/-- The word that carries a result is a NaN exactly when the result is. -/
theorem isNanWord_binary64ToWord_iff {nan : Word64} (h : isNanWord nan = true) {v : Binary64} (hv : v.Carried) :
    isNanWord (binary64ToWord nan v) = true ↔ v = .nan := by
  rw [isNanWord_iff, binary64OfWord_binary64ToWord h hv]

/-! ## The words of the infinities and of the two zeros -/

theorem binary64ToWord_inf_eq (nan : Word64) (neg : Bool) : binary64ToWord nan (.inf neg) = infinityWord neg := by
  cases neg <;> rfl

theorem binary64OfWord_eq_inf_iff {w : Word64} {neg : Bool} : binary64OfWord w = .inf neg ↔ w = infinityWord neg := by
  constructor
  · intro h
    rw [← binary64ToWord_inf_eq 0 neg, ← h, binary64ToWord_binary64OfWord 0 (by simp [h])]
  · rintro rfl
    rw [← binary64ToWord_inf_eq 0 neg]
    exact binary64OfWord_binary64Word neg (by decide) (by decide)

/-- The two words of the infinities. -/
theorem infinite_iff {w : Word64} : (w = 0x7FF0000000000000#64 ∨ w = 0xFFF0000000000000#64) ↔
    ∃ neg, binary64OfWord w = .inf neg := by
  simp only [binary64OfWord_eq_inf_iff, Bool.exists_bool]
  rfl

theorem opposite_infinities_iff {w w' : Word64} :
    ((w = 0x7FF0000000000000#64 ∨ w = 0xFFF0000000000000#64) ∧
      (w' = 0x7FF0000000000000#64 ∨ w' = 0xFFF0000000000000#64) ∧ w ≠ w') ↔
    ∃ neg, binary64OfWord w = .inf neg ∧ binary64OfWord w' = .inf (!neg) := by
  simp only [binary64OfWord_eq_inf_iff, Bool.exists_bool]
  constructor
  · rintro ⟨rfl | rfl, rfl | rfl, hne⟩
    · exact absurd rfl hne
    · exact .inl ⟨rfl, rfl⟩
    · exact .inr ⟨rfl, rfl⟩
    · exact absurd rfl hne
  · rintro (⟨rfl, rfl⟩ | ⟨rfl, rfl⟩) <;> decide

theorem binary64IsZero_iff {v : Binary64} : binary64IsZero v = true ↔ ∃ neg, v = .fin neg 0 := by
  cases v <;> simp

/-- The zero test on a word (42_value_transformer.md R107): the words of `+0` and `-0`, and no other. -/
theorem binary64IsZero_binary64OfWord_iff {w : Word64} :
    binary64IsZero (binary64OfWord w) = true ↔ w = 0#64 ∨ w = 0x8000000000000000#64 := by
  constructor
  · intro h
    obtain ⟨neg, hneg⟩ := binary64IsZero_iff.mp h
    have hw : w = binary64Word neg 0 0 := by
      rw [← binary64ToWord_subnormal 0 neg (by decide), ← hneg, binary64ToWord_binary64OfWord 0 (by simp [hneg])]
    cases neg
    · exact .inl hw
    · exact .inr hw
  · rintro (rfl | rfl) <;> decide

theorem binary64IsZero_binary64OfWord_eq_false {w : Word64} (hpos : w ≠ 0#64) (hneg : w ≠ 0x8000000000000000#64) :
    binary64IsZero (binary64OfWord w) = false := by
  rw [← Bool.not_eq_true, binary64IsZero_binary64OfWord_iff]
  exact not_or.mpr ⟨hpos, hneg⟩

end Sys2Proof.Machine
end

section
/-!
SUPPORT. The operations of the number format (42_value_transformer.md R101, R104, R105): each finite result is the exact
one rounded, and what each gives for zeros, infinities and NaNs.
-/
namespace Sys2Proof.Machine

/-! ## Rounding to a number -/

theorem roundsTo_roundFin (neg : Bool) (n t : Nat) : RoundsTo (roundFin neg n t) neg n t :=
  ⟨roundMag n t, nearestEven_roundMag n t, by rw [roundFin, overflowMag_eq]⟩

theorem carried_roundFin (neg : Bool) (n t : Nat) : (roundFin neg n t).Carried := by
  rcases roundFin_cases neg n t with ⟨hbound, h⟩ | ⟨-, h⟩ <;> rw [h]
  · exact ⟨representable_roundMag n t, hbound⟩
  · trivial

theorem roundFin_ne_nan (neg : Bool) (n t : Nat) : roundFin neg n t ≠ .nan := by
  rcases roundFin_cases neg n t with ⟨-, h⟩ | ⟨-, h⟩ <;> simp [h]

theorem roundFin_of_overflow (neg : Bool) {n t : Nat} (h : overflowMag ≤ roundMag n t) :
    roundFin neg n t = .inf neg := if_neg h.not_gt

theorem roundFin_of_lt (neg : Bool) {n t : Nat} (h : roundMag n t < overflowMag) :
    roundFin neg n t = .fin neg (roundMag n t) := if_pos h

theorem roundFin_eq_inf_iff {neg neg' : Bool} {n t : Nat} :
    roundFin neg n t = .inf neg' ↔ overflowMag ≤ roundMag n t ∧ neg = neg' := by
  rcases roundFin_cases neg n t with ⟨hbound, h⟩ | ⟨hbound, h⟩
  · simp [h, hbound.not_ge]
  · simp [h, hbound]

@[simp] theorem roundFin_zero (neg : Bool) (t : Nat) : roundFin neg 0 t = .fin neg 0 := by
  rw [roundFin_of_lt] <;> simp [overflowMag_eq, twoPow_pos]

/-- A number that has a word is not changed by rounding. -/
theorem roundFin_of_representable (neg : Bool) {m : Nat} (hm : Representable m) (hbound : m < overflowMag) :
    roundFin neg m 0 = .fin neg m := by
  have hround := roundMag_of_representable hm
  rw [roundFin_of_lt neg (by rwa [hround]), hround]

/-! ## The conversion of a raw value -/

/-- The magnitude of a raw value in units, rounded. -/
def rawMag (v : Word64) : Nat := roundMag (unitsPerOne * v.toNat) 0

theorem nearestEven_rawMag (v : Word64) : NearestEven (twoPow 1074 * v.toNat) 0 (rawMag v) := by
  rw [← unitsPerOne_eq]
  exact nearestEven_roundMag _ 0

theorem rawMag_lt_overflowMag (v : Word64) : rawMag v < overflowMag := by
  have hle : rawMag v ≤ 2 ^ (1074 + 64) := (nearestEven_rawMag v).le_of_le (representable_two_pow _) <| by
    rw [pow_zero, mul_one, pow_add, ← twoPow_eq 1074]
    exact Nat.mul_le_mul_left _ v.isLt.le
  exact hle.trans_lt (two_pow_lt_overflowMag (by decide))

/-- Every raw value is converted to a finite number. -/
theorem binary64OfUnsigned_eq (v : Word64) : binary64OfUnsigned v = .fin false (rawMag v) :=
  roundFin_of_lt false (rawMag_lt_overflowMag v)

/-- A raw value of at most 53 significant bits is converted exactly (42_value_transformer.md R108). -/
theorem rawMag_of_representable {v : Word64} (h : Representable v.toNat) : rawMag v = twoPow 1074 * v.toNat := by
  refine (nearestEven_rawMag v).eq_of_representable ?_
  rw [mul_comm, twoPow_eq]
  exact h.mul_two_pow 1074

theorem rawMag_eq_zero_iff {v : Word64} : rawMag v = 0 ↔ v = 0#64 := by
  constructor
  · intro h
    by_contra hv
    have hpos : 0 < v.toNat := Nat.pos_of_ne_zero fun hz => hv (BitVec.eq_of_toNat_eq hz)
    have hle : twoPow 1074 ≤ rawMag v := (nearestEven_rawMag v).le_of_ge
      (by rw [twoPow_eq]; exact representable_two_pow 1074) (by simpa using Nat.le_mul_of_pos_right _ hpos)
    exact (twoPow_pos 1074).not_ge (h ▸ hle)
  · rintro rfl
    simp [rawMag]

/-! ## The product -/

@[simp] theorem binary64Mul_fin_fin (a b : Bool) (m k : Nat) :
    binary64Mul (.fin a m) (.fin b k) = roundFin (a ^^ b) (m * k) 1074 := rfl

theorem binary64Mul_fin_inf (a b : Bool) (m : Nat) :
    binary64Mul (.fin a m) (.inf b) = if m = 0 then .nan else .inf (a ^^ b) := rfl

theorem binary64Mul_inf_fin (a b : Bool) (k : Nat) :
    binary64Mul (.inf a) (.fin b k) = if k = 0 then .nan else .inf (a ^^ b) := rfl

theorem carried_binary64Mul (a b : Binary64) : (binary64Mul a b).Carried := by
  cases a with
  | nan => rw [binary64Mul_nan_left]; trivial
  | inf sa =>
    cases b with
    | nan => trivial
    | inf sb => trivial
    | fin sb k => rw [binary64Mul_inf_fin]; split_ifs <;> trivial
  | fin sa m =>
    cases b with
    | nan => trivial
    | inf sb => rw [binary64Mul_fin_inf]; split_ifs <;> trivial
    | fin sb k => exact carried_roundFin _ _ _

/-- A finite number times any other is a NaN for a NaN, and for zero times an infinity. -/
theorem binary64Mul_fin_eq_nan_iff {a : Bool} {m : Nat} {v : Binary64} :
    binary64Mul (.fin a m) v = .nan ↔ v = .nan ∨ m = 0 ∧ ∃ neg, v = .inf neg := by
  cases v with
  | nan => simp
  | inf b => simp [binary64Mul_fin_inf]
  | fin b k => simp [roundFin_ne_nan]

/-- A positive finite number times any other is an infinity for an infinity, unless it is zero, and on overflow. -/
theorem binary64Mul_fin_eq_inf_iff {m : Nat} {v : Binary64} {neg : Bool} :
    binary64Mul (.fin false m) v = .inf neg ↔
      (m ≠ 0 ∧ v = .inf neg) ∨ ∃ k, v = .fin neg k ∧ overflowMag ≤ roundMag (m * k) 1074 := by
  cases v with
  | nan => simp
  | inf b => by_cases hm : m = 0 <;> simp [binary64Mul_fin_inf, hm]
  | fin b k =>
    rw [binary64Mul_fin_fin, Bool.false_xor, roundFin_eq_inf_iff]
    constructor
    · rintro ⟨hbound, rfl⟩
      exact .inr ⟨k, rfl, hbound⟩
    · rintro (⟨-, ⟨⟩⟩ | ⟨_, ⟨⟩, hbound⟩)
      exact ⟨hbound, rfl⟩

/-! ## The sum -/

theorem binary64Add_fin_fin (a b : Bool) (m k : Nat) : binary64Add (.fin a m) (.fin b k) =
    if a = b then roundFin a (m + k) 0 else binary64Diff a m b k := rfl

@[simp] theorem binary64Add_inf_fin (a b : Bool) (k : Nat) : binary64Add (.inf a) (.fin b k) = .inf a := rfl

@[simp] theorem binary64Add_fin_inf (a b : Bool) (m : Nat) : binary64Add (.fin a m) (.inf b) = .inf b := rfl

theorem binary64Add_inf_inf (a b : Bool) : binary64Add (.inf a) (.inf b) = if a = b then .inf a else .nan := rfl

theorem signedUnits_zero (neg : Bool) : signedUnits neg 0 = 0 := by cases neg <;> rfl

theorem natAbs_signedUnits (neg : Bool) (n : Nat) : (signedUnits neg n).natAbs = n := by
  cases neg <;> simp [signedUnits]

theorem signedUnits_lt_zero_iff {neg : Bool} {n : Nat} (hn : n ≠ 0) : signedUnits neg n < 0 ↔ neg = true := by
  cases neg <;> simp [signedUnits, Nat.pos_of_ne_zero hn]

theorem signedUnits_add (neg : Bool) (m k : Nat) :
    signedUnits neg m + signedUnits neg k = signedUnits neg (m + k) := by
  cases neg
  · exact (Nat.cast_add m k).symm
  · simp only [signedUnits, if_true, Nat.cast_add, neg_add]

/-- Of two opposite numbers the larger gives the sign of the sum. -/
theorem signedUnits_add_not (neg : Bool) {m k : Nat} (h : k ≤ m) :
    signedUnits neg m + signedUnits (!neg) k = signedUnits neg (m - k) := by
  cases neg <;> simp [signedUnits] <;> omega

/-- The sum of two finite numbers: the exact sum is zero, or a number that is rounded. -/
theorem binary64Add_fin_cases (a : Bool) (m : Nat) (b : Bool) (k : Nat) :
    (signedUnits a m + signedUnits b k = 0 ∧ binary64Add (.fin a m) (.fin b k) = .fin (a && b) 0) ∨
      ∃ neg n, n ≠ 0 ∧ signedUnits a m + signedUnits b k = signedUnits neg n ∧
        binary64Add (.fin a m) (.fin b k) = roundFin neg n 0 := by
  rw [binary64Add_fin_fin]
  by_cases hab : a = b
  · subst hab
    rw [if_pos rfl, signedUnits_add, Bool.and_self]
    rcases Nat.eq_zero_or_pos (m + k) with hz | hpos
    · exact .inl ⟨by rw [hz, signedUnits_zero], by rw [hz, roundFin_zero]⟩
    · exact .inr ⟨a, m + k, hpos.ne', rfl, rfl⟩
  · obtain rfl : b = !a := Bool.eq_not.mpr (Ne.symm hab)
    rw [if_neg hab, Bool.and_not_self]
    unfold binary64Diff
    split_ifs with heq hlt
    · exact .inl ⟨by rw [signedUnits_add_not a heq.ge, heq, Nat.sub_self, signedUnits_zero], rfl⟩
    · exact .inr ⟨a, m - k, by omega, signedUnits_add_not a hlt.le, rfl⟩
    · have swap := signedUnits_add_not (!a) (show m ≤ k by omega)
      rw [Bool.not_not, add_comm] at swap
      exact .inr ⟨!a, k - m, by omega, swap, rfl⟩

/-- The exact sum of two finite numbers, when it is not zero, is rounded. -/
theorem roundsTo_binary64Add {a b : Bool} {m k : Nat} (h : signedUnits a m + signedUnits b k ≠ 0) :
    RoundsTo (binary64Add (.fin a m) (.fin b k)) (decide (signedUnits a m + signedUnits b k < 0))
      (signedUnits a m + signedUnits b k).natAbs 0 := by
  rcases binary64Add_fin_cases a m b k with ⟨hz, -⟩ | ⟨neg, n, hn, hexact, hsum⟩
  · exact absurd hz h
  · simp only [hexact, hsum, natAbs_signedUnits, signedUnits_lt_zero_iff hn, Bool.decide_eq_true]
    exact roundsTo_roundFin neg n 0

theorem binary64Add_of_exact_zero {a b : Bool} {m k : Nat} (h : signedUnits a m + signedUnits b k = 0) :
    binary64Add (.fin a m) (.fin b k) = .fin (a && b) 0 := by
  rcases binary64Add_fin_cases a m b k with ⟨-, hsum⟩ | ⟨neg, n, hn, hexact, -⟩
  · exact hsum
  · exact absurd (by rw [← natAbs_signedUnits neg n, ← hexact, h, Int.natAbs_zero]) hn

theorem binary64Add_fin_ne_nan (a b : Bool) (m k : Nat) : binary64Add (.fin a m) (.fin b k) ≠ .nan := by
  rcases binary64Add_fin_cases a m b k with ⟨-, h⟩ | ⟨neg, n, -, -, h⟩ <;> rw [h]
  · simp
  · exact roundFin_ne_nan neg n 0

theorem carried_binary64Add_fin (a : Bool) (m : Nat) (b : Bool) (k : Nat) :
    (binary64Add (.fin a m) (.fin b k)).Carried := by
  rcases binary64Add_fin_cases a m b k with ⟨-, h⟩ | ⟨neg, n, -, -, h⟩ <;> rw [h]
  · exact roundFin_zero (a && b) 0 ▸ carried_roundFin _ 0 0
  · exact carried_roundFin neg n 0

theorem carried_binary64Add (a b : Binary64) : (binary64Add a b).Carried := by
  cases a with
  | nan => rw [binary64Add_nan_left]; trivial
  | inf sa =>
    cases b with
    | nan => trivial
    | inf sb => rw [binary64Add_inf_inf]; split_ifs <;> trivial
    | fin sb k => trivial
  | fin sa m =>
    cases b with
    | nan => trivial
    | inf sb => trivial
    | fin sb k => exact carried_binary64Add_fin sa m sb k

/-- A sum is a NaN for a NaN, and for infinities of two signs. -/
theorem binary64Add_eq_nan_iff {a b : Binary64} :
    binary64Add a b = .nan ↔ a = .nan ∨ b = .nan ∨ ∃ neg, a = .inf neg ∧ b = .inf (!neg) := by
  cases a with
  | nan => simp
  | inf sa =>
    cases b with
    | nan => simp
    | inf sb => cases sa <;> cases sb <;> simp [binary64Add_inf_inf]
    | fin sb k => simp
  | fin sa m =>
    cases b with
    | nan => simp
    | inf sb => simp
    | fin sb k => simp [binary64Add_fin_ne_nan]

/-- A number that is not zero is not changed by adding a zero. -/
theorem binary64Add_zero_left (a : Bool) {v : Binary64} (hv : v.Carried) (hzero : binary64IsZero v = false) :
    binary64Add (.fin a 0) v = v := by
  cases v with
  | nan => rfl
  | inf neg => rfl
  | fin neg m =>
    obtain ⟨hm, hbound⟩ := hv
    have hne : m ≠ 0 := by simpa using hzero
    by_cases hsign : a = neg
    · rw [binary64Add_fin_fin, if_pos hsign, hsign, Nat.zero_add, roundFin_of_representable neg hm hbound]
    · rw [binary64Add_fin_fin, if_neg hsign, binary64Diff, if_neg hne.symm, if_neg (Nat.not_lt_zero m), Nat.sub_zero,
        roundFin_of_representable neg hm hbound]

theorem binary64Diff_comm (a : Bool) (m : Nat) (b : Bool) (k : Nat) :
    binary64Diff a m b k = binary64Diff b k a m := by
  unfold binary64Diff
  rcases lt_trichotomy m k with h | rfl | h
  · rw [if_neg h.ne, if_neg h.not_gt, if_neg h.ne', if_pos h]
  · rw [if_pos rfl, if_pos rfl]
  · rw [if_neg h.ne', if_pos h, if_neg h.ne, if_neg h.not_gt]

theorem binary64Add_comm (a b : Binary64) : binary64Add a b = binary64Add b a := by
  cases a with
  | nan => simp
  | inf sa =>
    cases b with
    | inf sb => cases sa <;> cases sb <;> rfl
    | nan => rfl
    | fin sb k => rfl
  | fin sa m =>
    cases b with
    | nan => rfl
    | inf sb => rfl
    | fin sb k =>
      rw [binary64Add_fin_fin, binary64Add_fin_fin, Nat.add_comm m, binary64Diff_comm sa]
      by_cases h : sa = sb
      · rw [if_pos h, if_pos h.symm, h]
      · rw [if_neg h, if_neg (Ne.symm h)]

theorem binary64Add_zero_right (b : Bool) {v : Binary64} (hv : v.Carried) (hzero : binary64IsZero v = false) :
    binary64Add v (.fin b 0) = v := by
  rw [binary64Add_comm, binary64Add_zero_left b hv hzero]

/-- Adding zeros gives a zero. -/
theorem binary64IsZero_binary64Add (a b : Bool) : binary64IsZero (binary64Add (.fin a 0) (.fin b 0)) = true := by
  rw [binary64Add_of_exact_zero] <;> cases a <;> cases b <;> rfl

end Sys2Proof.Machine
end

section
/-!
SUPPORT. `XFORM` (42_value_transformer.md R100): its outcome by the number that it computes, and that number in the
identity case, with one of the two zero, and among infinities and NaNs (R102, R103, R105).
-/
namespace Sys2Proof.Machine

/-- The number that `PHYS` carries. -/
def xformValue (raw scale offset : Word64) : Binary64 :=
  transform binary64 raw (binary64OfWord scale) (binary64OfWord offset)

/-- The product of the raw value and the scale, rounded. -/
def scaledValue (raw scale : Word64) : Binary64 := binary64Mul (.fin false (rawMag raw)) (binary64OfWord scale)

theorem scaledValue_eq (raw scale : Word64) :
    scaledValue raw scale = binary64Mul (binary64OfUnsigned raw) (binary64OfWord scale) := by
  rw [scaledValue, binary64OfUnsigned_eq]

/-- What `XFORM` does: it answers with the word of the number computed, for a NaN with the word drawn. -/
theorem exec_xform (raw scale offset : Word64) (s : State) :
    exec (.xform raw scale offset) s = .next (s.answered
      { status := .ok
        phys := some (binary64ToWord (nanWord (.xform raw scale offset) s) (xformValue raw scale offset)) }) := rfl

/-- A number that is no NaN is answered with its own word, whatever the word drawn. -/
theorem exec_xform_of_value {raw scale offset w : Word64} {v : Binary64} (s : State)
    (hvalue : xformValue raw scale offset = v) (hword : ∀ nan, binary64ToWord nan v = w) :
    exec (.xform raw scale offset) s = .next (s.answered { status := .ok, phys := some w }) := by
  rw [exec_xform, hvalue, hword]

section Value
variable {raw scale offset : Word64}

/-- The identity case (42_value_transformer.md R102). -/
theorem xformValue_of_zeros (hs : binary64IsZero (binary64OfWord scale) = true)
    (ho : binary64IsZero (binary64OfWord offset) = true) : xformValue raw scale offset = binary64OfUnsigned raw :=
  if_pos (Bool.and_eq_true_iff.mpr ⟨hs, ho⟩)

/-- The general case (42_value_transformer.md R104). -/
theorem xformValue_of_not_zeros
    (h : ¬ (binary64IsZero (binary64OfWord scale) = true ∧ binary64IsZero (binary64OfWord offset) = true)) :
    xformValue raw scale offset = binary64Add (scaledValue raw scale) (binary64OfWord offset) := by
  rw [scaledValue_eq]
  exact if_neg fun hand => h (Bool.and_eq_true_iff.mp hand)

theorem carried_scaledValue (raw scale : Word64) : (scaledValue raw scale).Carried := carried_binary64Mul _ _

theorem carried_xformValue (raw scale offset : Word64) : (xformValue raw scale offset).Carried := by
  by_cases h : binary64IsZero (binary64OfWord scale) = true ∧ binary64IsZero (binary64OfWord offset) = true
  · obtain ⟨hs, ho⟩ := h
    rw [xformValue_of_zeros hs ho]
    exact carried_roundFin _ _ _
  · rw [xformValue_of_not_zeros h]
    exact carried_binary64Add _ _

theorem scaledValue_of_zero_scale (raw : Word64) (hs : binary64IsZero (binary64OfWord scale) = true) :
    ∃ neg, scaledValue raw scale = .fin neg 0 := by
  obtain ⟨neg, h⟩ := binary64IsZero_iff.mp hs
  exact ⟨neg, by rw [scaledValue, h, binary64Mul_fin_fin, Nat.mul_zero, roundFin_zero, Bool.false_xor]⟩

/-- With scale zero every raw value gives the offset (42_value_transformer.md R103). -/
theorem xformValue_of_zero_scale (hs : binary64IsZero (binary64OfWord scale) = true)
    (ho : binary64IsZero (binary64OfWord offset) = false) : xformValue raw scale offset = binary64OfWord offset := by
  obtain ⟨neg, hproduct⟩ := scaledValue_of_zero_scale raw hs
  rw [xformValue_of_not_zeros (by simp [ho]), hproduct,
    binary64Add_zero_left neg (carried_binary64OfWord offset) ho]

/-- With offset zero the value is the product, but for the sign of a zero (42_value_transformer.md R103). -/
theorem xformValue_of_zero_offset (hs : binary64IsZero (binary64OfWord scale) = false)
    (ho : binary64IsZero (binary64OfWord offset) = true) :
    xformValue raw scale offset = scaledValue raw scale ∨
      binary64IsZero (xformValue raw scale offset) = true ∧ binary64IsZero (scaledValue raw scale) = true := by
  obtain ⟨neg, hoffset⟩ := binary64IsZero_iff.mp ho
  rw [xformValue_of_not_zeros (by simp [hs]), hoffset]
  cases hzero : binary64IsZero (scaledValue raw scale) with
  | false => exact .inl (binary64Add_zero_right neg (carried_scaledValue raw scale) hzero)
  | true =>
    obtain ⟨sign, hproduct⟩ := binary64IsZero_iff.mp hzero
    exact .inr ⟨by rw [hproduct, binary64IsZero_binary64Add], rfl⟩

/-- The value is a NaN where the formula gives one; the identity case, in which it gives none, is no exception. -/
theorem xformValue_eq_nan_iff : xformValue raw scale offset = .nan ↔
    scaledValue raw scale = .nan ∨ binary64OfWord offset = .nan ∨
      ∃ neg, scaledValue raw scale = .inf neg ∧ binary64OfWord offset = .inf (!neg) := by
  rw [← binary64Add_eq_nan_iff]
  by_cases h : binary64IsZero (binary64OfWord scale) = true ∧ binary64IsZero (binary64OfWord offset) = true
  · obtain ⟨hs, ho⟩ := h
    obtain ⟨a, hproduct⟩ := scaledValue_of_zero_scale raw hs
    obtain ⟨b, hoffset⟩ := binary64IsZero_iff.mp ho
    rw [xformValue_of_zeros hs ho, hproduct, hoffset, binary64OfUnsigned_eq]
    simp [binary64Add_fin_ne_nan]
  · rw [xformValue_of_not_zeros h]

theorem scaledValue_eq_nan_iff : scaledValue raw scale = .nan ↔
    binary64OfWord scale = .nan ∨ raw = 0#64 ∧ ∃ neg, binary64OfWord scale = .inf neg := by
  rw [scaledValue, binary64Mul_fin_eq_nan_iff, rawMag_eq_zero_iff]

/-- The product is an infinity when the scale is one and the raw value not zero, and on overflow. -/
theorem scaledValue_eq_inf_iff {neg : Bool} : scaledValue raw scale = .inf neg ↔
    (raw ≠ 0#64 ∧ binary64OfWord scale = .inf neg) ∨
      ∃ m, binary64OfWord scale = .fin neg m ∧ overflowMag ≤ roundMag (rawMag raw * m) 1074 := by
  rw [scaledValue, binary64Mul_fin_eq_inf_iff, Ne, rawMag_eq_zero_iff]

theorem scaledValue_of_lt {neg : Bool} {m : Nat} (hscale : binary64OfWord scale = .fin neg m)
    (hbound : roundMag (rawMag raw * m) 1074 < overflowMag) :
    scaledValue raw scale = .fin neg (roundMag (rawMag raw * m) 1074) := by
  rw [scaledValue, hscale, binary64Mul_fin_fin, Bool.false_xor, roundFin_of_lt neg hbound]

/-- An infinite product stays beside a finite offset and beside an infinity of its own sign. -/
theorem xformValue_of_infinite_product {neg : Bool} (h : scaledValue raw scale = .inf neg)
    (ho : (∃ neg' k, binary64OfWord offset = .fin neg' k) ∨ binary64OfWord offset = .inf neg) :
    xformValue raw scale offset = .inf neg := by
  have hs : binary64IsZero (binary64OfWord scale) ≠ true := fun hs => by
    obtain ⟨_, hzero⟩ := scaledValue_of_zero_scale raw hs
    rw [h] at hzero
    cases hzero
  rw [xformValue_of_not_zeros fun ⟨hzero, _⟩ => hs hzero, h]
  rcases ho with ⟨neg', k, ho⟩ | ho <;> rw [ho]
  · rfl
  · exact if_pos rfl

/-- An infinite offset stays beside a finite product. -/
theorem xformValue_of_infinite_offset {neg neg' : Bool} {m : Nat} (h : scaledValue raw scale = .fin neg m)
    (ho : binary64OfWord offset = .inf neg') : xformValue raw scale offset = .inf neg' := by
  rw [xformValue_of_not_zeros (by simp [ho]), h, ho, binary64Add_fin_inf]

/-- A finite product and a finite offset of one sign whose sum overflows. -/
theorem xformValue_of_overflowing_sum {neg : Bool} {m k : Nat} (h : scaledValue raw scale = .fin neg m)
    (ho : binary64OfWord offset = .fin neg k) (hsum : overflowMag ≤ roundMag (m + k) 0) :
    xformValue raw scale offset = .inf neg := by
  rw [xformValue_of_not_zeros ?_, h, ho, binary64Add_fin_fin, if_pos rfl, roundFin_of_overflow neg hsum]
  rintro ⟨hs, hk⟩
  obtain ⟨_, hm⟩ := scaledValue_of_zero_scale raw hs
  obtain ⟨-, rfl⟩ := Binary64.fin.inj (h.symm.trans hm)
  rw [ho, binary64IsZero_fin, decide_eq_true_iff] at hk
  rw [hk, roundMag_zero, overflowMag_eq] at hsum
  exact (twoPow_pos 2098).not_ge hsum

end Value

end Sys2Proof.Machine
end

section
/-! The statements of 42_value_transformer.md. -/
namespace Sys2Proof.Proofs
open Sys2Proof.Machine

/-- Settles O50: `roundMag` is to nearest, ties to even, and each operation rounds the exact result with it. -/
theorem roundingIsToNearestTiesToEven : Obligations.RoundingIsToNearestTiesToEven :=
  ⟨nearestEven_roundMag, fun a m b k => roundsTo_roundFin (a ^^ b) (m * k) 1074,
    fun _ _ _ _ => ⟨roundsTo_binary64Add, binary64Add_of_exact_zero⟩,
    fun v => ⟨rawMag v, nearestEven_rawMag v, binary64OfUnsigned_eq v⟩⟩

/-- Settles O49: the layout by the class of the exponent, and the ways there and back. -/
theorem wordsCarryNumbersExactly : Obligations.WordsCarryNumbersExactly := by
  refine ⟨fun w => ⟨fun he => ?_, fun hpos hmax => ?_, fun he hf => ?_, fun he hf => ?_⟩, fun nan w hw => ?_,
    fun nan neg m hm hbound => ?_, binary64ToWord_inf_eq, isNanWord_nanWord⟩
  · rw [binary64OfWord_eq, if_neg (by omega), if_pos he]
  · rw [binary64OfWord_eq, if_neg hmax.ne, if_neg hpos.ne']
  · rw [binary64OfWord_eq, if_pos he, if_pos hf]
  · rw [binary64OfWord_eq, if_pos he, if_neg hf]
  · exact binary64ToWord_binary64OfWord nan (isNanWord_eq_false_iff.mp hw)
  · exact binary64OfWord_binary64ToWord_fin nan neg hm (by rwa [overflowMag_eq])

/-- Settles O42: the two words of zero are those that the zero test accepts. -/
theorem xformIsIdentityOrLinear : Obligations.XformIsIdentityOrLinear := by
  intro raw scale offset s
  simp only [← binary64IsZero_binary64OfWord_iff]
  have drawn := isNanWord_nanWord (.xform raw scale offset) s
  refine ⟨fun ⟨hs, ho⟩ => ⟨_, drawn, ?_⟩, fun h => ⟨_, drawn, ?_⟩⟩
  · rw [exec_xform, xformValue_of_zeros hs ho]
    rfl
  · rw [exec_xform, xformValue_of_not_zeros h, scaledValue_eq]
    rfl

/-- Settles O44: the value is the raw one rounded, a finite number that its word carries exactly. -/
theorem identityTransformIsExact : Obligations.IdentityTransformIsExact := by
  intro raw scale offset s hs ho
  have hvalue : xformValue raw scale offset = .fin false (rawMag raw) := by
    rw [xformValue_of_zeros (binary64IsZero_binary64OfWord_iff.mpr hs) (binary64IsZero_binary64OfWord_iff.mpr ho),
      binary64OfUnsigned_eq]
  have word_of_sample : ∀ w, binary64OfUnsigned raw = binary64OfWord w →
      binary64ToWord 0 (.fin false (rawMag raw)) = w := by
    intro w h
    rw [← binary64OfUnsigned_eq, h, binary64ToWord_binary64OfWord 0 (by rw [← h, binary64OfUnsigned_eq]; simp)]
  refine ⟨binary64ToWord 0 (.fin false (rawMag raw)), rawMag raw,
    binary64OfWord_binary64ToWord_fin 0 false (representable_roundMag _ 0) (rawMag_lt_overflowMag raw),
    nearestEven_rawMag raw, fun h => rawMag_of_representable ?_, ?_, ?_, exec_xform_of_value s hvalue fun _ => rfl⟩
  · exact h.elim representable_of_lt id
  · rintro rfl
    exact word_of_sample _ (by decide +kernel)
  · rintro rfl
    exact word_of_sample _ (by decide +kernel)

/-- Settles O45: the product is a zero, and adding it changes no number that is not zero. -/
theorem zeroScaleGivesOffset : Obligations.ZeroScaleGivesOffset := by
  intro raw scale offset s hs hpos hneg hnan
  have hvalue : xformValue raw scale offset = binary64OfWord offset :=
    xformValue_of_zero_scale (binary64IsZero_binary64OfWord_iff.mpr hs)
      (binary64IsZero_binary64OfWord_eq_false hpos hneg)
  exact exec_xform_of_value s hvalue fun nan => binary64ToWord_binary64OfWord nan (isNanWord_eq_false_iff.mp hnan)

/-- Settles O46: adding a zero changes at most the sign of a zero. -/
theorem zeroOffsetGivesProduct : Obligations.ZeroOffsetGivesProduct := by
  intro raw scale offset s ho hpos hneg
  refine ⟨_, _, isNanWord_nanWord (.xform raw scale offset) s, ?_, exec_xform raw scale offset s⟩
  rw [← scaledValue_eq]
  exact xformValue_of_zero_offset (binary64IsZero_binary64OfWord_eq_false hpos hneg)
    (binary64IsZero_binary64OfWord_iff.mpr ho)

/-- Settles O47: a NaN comes from a NaN operand, from the product, or from the sum of an infinite product and an
infinite offset. -/
theorem invalidTransformGivesNan : Obligations.InvalidTransformGivesNan := by
  intro raw scale offset s
  refine ⟨_, ?_, exec_xform raw scale offset s⟩
  rw [isNanWord_binary64ToWord_iff (isNanWord_nanWord _ s) (carried_xformValue raw scale offset),
    xformValue_eq_nan_iff, scaledValue_eq_nan_iff, opposite_infinities_iff]
  simp only [infinite_iff, isNanWord_iff, scaledValue_eq_inf_iff, binary64OfUnsigned_eq, ← overflowMag_eq,
    ← binary64OfWord_eq_inf_iff]
  constructor
  · rintro ((hscale | hzero) | hoffset | ⟨neg, ⟨-, hscale⟩ | ⟨m, hscale, hover⟩, ho⟩)
    · exact .inl hscale
    · exact .inr (.inr (.inl hzero))
    · exact .inr (.inl hoffset)
    · exact .inr (.inr (.inr (.inl ⟨neg, hscale, ho⟩)))
    · exact .inr (.inr (.inr (.inr ⟨neg, _, m, rfl, hscale, hover, ho⟩)))
  · rintro (hscale | hoffset | hzero | ⟨neg, hscale, ho⟩ | ⟨neg, x, m, hx, hscale, hover, ho⟩)
    · exact .inl (.inl hscale)
    · exact .inr (.inl hoffset)
    · exact .inl (.inr hzero)
    · by_cases hraw : raw = 0#64
      · exact .inl (.inr ⟨hraw, neg, hscale⟩)
      · exact .inr (.inr ⟨neg, .inl ⟨hraw, hscale⟩, ho⟩)
    · obtain ⟨-, rfl⟩ := Binary64.fin.inj hx
      exact .inr (.inr ⟨neg, .inr ⟨m, hscale, hover⟩, ho⟩)

/-- Settles O48: the value is an infinity, which its word carries, whatever the cause. -/
theorem overflowAndInfinitiesGiveInfinity : Obligations.OverflowAndInfinitiesGiveInfinity := by
  intro raw scale offset s
  simp only [← overflowMag_eq, ← binary64OfWord_eq_inf_iff, binary64OfUnsigned_eq]
  have gives_infinity {neg : Bool} {w : Word64} (hw : binary64OfWord w = .inf neg)
      (h : xformValue raw scale offset = .inf neg) :
      exec (.xform raw scale offset) s = .next (s.answered { status := .ok, phys := some w }) :=
    exec_xform_of_value s h fun nan => by rw [binary64ToWord_inf_eq, binary64OfWord_eq_inf_iff.mp hw]
  refine ⟨fun neg hscale hraw ho => ?_, fun neg x m hx hscale => ?_⟩
  · exact gives_infinity hscale
      (xformValue_of_infinite_product (scaledValue_eq_inf_iff.mpr (.inl ⟨hraw, hscale⟩)) ho)
  · obtain ⟨-, rfl⟩ := Binary64.fin.inj hx
    refine ⟨fun hover ho => ?_, fun hbound => ⟨fun neg' ho => ?_, fun k ho hsum => ?_⟩⟩
    · exact gives_infinity (binary64OfWord_eq_inf_iff.mpr rfl)
        (xformValue_of_infinite_product (scaledValue_eq_inf_iff.mpr (.inr ⟨m, hscale, hover⟩)) ho)
    · exact gives_infinity ho (xformValue_of_infinite_offset (scaledValue_of_lt hscale hbound) ho)
    · exact gives_infinity (binary64OfWord_eq_inf_iff.mpr rfl)
        (xformValue_of_overflowing_sum (scaledValue_of_lt hscale hbound) ho hsum)

/-- Settles O43. -/
theorem transformOverAnyNumberFormat : Obligations.TransformOverAnyNumberFormat := by
  intro num raw scale offset
  rcases transform_cases num raw scale offset with ⟨hs, ho, h⟩ | ⟨hne, h⟩
  · exact ⟨fun _ _ => h, fun hne => by simp [hs, ho] at hne⟩
  · exact ⟨fun hs ho => by simp [hs, ho] at hne, fun _ => h⟩

end Sys2Proof.Proofs
end

section
/-!
SUPPORT. Field decode (43_decode_field.md R110 to R113) told by the answer of the extraction on the same operand: its
`RangeError` passes through, and its raw value, unchanged, is the transformer's.
-/
namespace Sys2Proof.Machine

/-- The last response delivered tells which response was given. -/
theorem respond_inj {r r' : Response} {s : State} (h : s.respond r = s.respond r') : r = r' := by
  have responses : s.responses ++ [r] = s.responses ++ [r'] := congrArg State.responses h
  exact List.singleton_inj.mp (List.append_cancel_left responses)

section FromExtraction
variable {i : Instr} {o : Option Extracted} {r : Response} {s : State} (scale offset : Word64)

/-- An extraction that returns no raw value raised `RangeError`, and the decode raises it too
(43_decode_field.md R113). -/
theorem answerDecode_of_extraction_without_raw (h : answerExtraction o s = .next (s.respond r)) (hraw : r.raw = none) :
    r = { status := .rangeError } ∧ answerDecode i o scale offset s = answerExtraction o s := by
  rcases answerExtraction_cases h with ⟨rfl, ht⟩ | ⟨e, rfl, ht⟩ <;> obtain rfl := respond_inj ht
  · exact ⟨rfl, rfl⟩
  · cases hraw

/-- The decode completes the extraction's response with the transform of the raw value returned
(43_decode_field.md R110 to R112). -/
theorem answerDecode_of_extraction_with_raw {w : Word64} (h : answerExtraction o s = .next (s.respond r))
    (hraw : r.raw = some w) : answerDecode i o scale offset s =
      .next (s.drawn.respond { r with phys := some (physWord (nanWord i s) w scale offset) }) := by
  rcases answerExtraction_cases h with ⟨rfl, ht⟩ | ⟨e, rfl, ht⟩ <;> obtain rfl := respond_inj ht
  · cases hraw
  · obtain rfl := Option.some.inj hraw
    rw [answerDecode_some]
    exact answerTransformed_eq_next.mpr rfl

end FromExtraction

/-- An extraction always answers, and leaves the draw counter alone. -/
theorem exists_answerExtraction_eq (o : Option Extracted) (s : State) :
    ∃ r, answerExtraction o s = .next (s.respond r) := by
  cases o with
  | none => exact ⟨_, rfl⟩
  | some e => exact ⟨_, rfl⟩

/-- In both byte orders the two operations perform one and the same extraction (43_decode_field.md R110, R111). -/
theorem exists_shared_extraction (len : BitVec 7) (data : Word64) (start bits : BitVec 8) (scale offset : Word64)
    (s : State) : ∀ p ∈ [(Instr.extMsb len data start bits, Instr.decMsb len data start bits scale offset),
        (Instr.extLsb len data start bits, Instr.decLsb len data start bits scale offset)],
      ∃ o, exec p.1 s = answerExtraction o s ∧ exec p.2 s = answerDecode p.2 o scale offset s := by
  simp only [List.forall_mem_cons]
  exact ⟨⟨_, exec_extMsb len data start bits s, exec_decMsb len data start bits scale offset s⟩,
    ⟨_, exec_extLsb len data start bits s, exec_decLsb len data start bits scale offset s⟩, nofun⟩

end Sys2Proof.Machine
end

section
/-! The statements of 43_decode_field.md. -/
namespace Sys2Proof.Proofs
open Sys2Proof.Machine

/-- Settles O53: both operations answer from one extraction, and only the words drawn for a NaN differ. -/
theorem decodeIsExtractThenTransform : Obligations.DecodeIsExtractThenTransform := by
  intro len data start bits scale offset s p hp
  obtain ⟨o, hext, hdec⟩ := exists_shared_extraction len data start bits scale offset s p hp
  obtain ⟨r, hanswer⟩ := exists_answerExtraction_eq o s
  rw [hext, hdec]
  refine ⟨r, hanswer, answerDecode_of_extraction_without_raw scale offset hanswer, fun w hraw => ?_⟩
  exact ⟨_, _, _, _,
    physWord_sameWordButNan (isNanWord_nanWord (.xform w scale offset) s) (isNanWord_nanWord p.2 s) w scale offset,
    exec_xform w scale offset s, answerDecode_of_extraction_with_raw scale offset hanswer hraw⟩

/-- Settles O51: the bits are those of `EXT.MSB` on the same operand. -/
theorem decMsbReturnsFieldAndPhysicalValue : Obligations.DecMsbReturnsFieldAndPhysicalValue := by
  intro len data start bits scale offset s hlen hlegal
  obtain ⟨n, w, hn, hfits, hbits, hext⟩ :=
    (extMsbReturnsFieldBitsOrRangeError len data start bits s hlen).1 hlegal
  exact ⟨n, w, _, isNanWord_nanWord (.decMsb len data start bits scale offset) s, hn, hfits, hbits,
    answerDecode_of_extraction_with_raw scale offset hext rfl⟩

/-- Settles O52: the bits are those of `EXT.LSB` on the same operand. -/
theorem decLsbReturnsFieldAndPhysicalValue : Obligations.DecLsbReturnsFieldAndPhysicalValue := by
  intro len data start bits scale offset s hlen hlegal
  obtain ⟨n, w, hn, hbits, hext⟩ := (extLsbReturnsFieldBitsOrRangeError len data start bits s hlen).1 hlegal
  exact ⟨n, w, _, isNanWord_nanWord (.decLsb len data start bits scale offset) s, hn, hbits,
    answerDecode_of_extraction_with_raw scale offset hext rfl⟩

end Sys2Proof.Proofs
end

section
/-!
SUPPORT. Which decoded operations raise `RangeError`: the causes of 60_exceptions.md R120 are the illegal spans of the
decoded extraction (41_field_extractor.md section 6), and these alone decide the status of its response.
-/
namespace Sys2Proof.Machine

/-! ## The status of the response to an operation -/

theorem extractLsb_frameOf_eq_none_iff {len : BitVec 7} {data : Word64} {s L : Nat} :
    extractLsb (frameOf len data) s L = none ↔ ¬ LsbLegal (8 * len.toNat) s L := by
  simp [Option.eq_none_iff_forall_ne_some, extractLsb_eq_some_iff_legal]

theorem extractMsb_frameOf_eq_none_iff {len : BitVec 7} {data : Word64} {s L : Nat} :
    extractMsb (frameOf len data) s L = none ↔ ¬ MsbLegal (8 * len.toNat) s L := by
  simp [Option.eq_none_iff_forall_ne_some, extractMsb_eq_some_iff_legal]

theorem extractString_stringOf_eq_none_iff {len : BitVec 7} {data : Word64} {s L : Nat} :
    extractString (stringOf len data) s L = none ↔ ¬ MsbLegal len.toNat s L := by
  simp [Option.eq_none_iff_forall_ne_some, extractString_eq_some_iff_legal]

/-- The operation extracts, and its span is not legal on its operand (41_field_extractor.md section 6). -/
def OutOfRange : Instr → Prop
  | .b2bMsb _ _ => False
  | .b2bLsb _ _ => False
  | .extMsb len _ start bits => ¬ MsbLegal (8 * len.toNat) start.toNat bits.toNat
  | .extLsb len _ start bits => ¬ LsbLegal (8 * len.toNat) start.toNat bits.toNat
  | .xbsMsb len _ start bits => ¬ MsbLegal len.toNat start.toNat bits.toNat
  | .xform _ _ _ => False
  | .decMsb len _ start bits _ _ => ¬ MsbLegal (8 * len.toNat) start.toNat bits.toNat
  | .decLsb len _ start bits _ _ => ¬ LsbLegal (8 * len.toNat) start.toNat bits.toNat

section Status
variable {o : Option Extracted} {P : Prop} [Decidable P] (h : o = none ↔ P)
include h

theorem fieldResponse_status : (fieldResponse o).status = if P then .rangeError else .ok := by
  cases o with
  | none => rw [if_pos (h.mp rfl), fieldResponse]
  | some e => rw [if_neg (mt h.mpr nofun), fieldResponse, extractedResponse]

theorem decodedResponse_status {nan scale offset : Word64} :
    (decodedResponse nan o scale offset).status = if P then .rangeError else .ok := by
  cases o with
  | none => rw [if_pos (h.mp rfl), decodedResponse]
  | some e => rw [if_neg (mt h.mpr nofun), decodedResponse, extractedResponse]

end Status

/-- An operation ends in `RANGE_ERROR` if it extracts from an illegal span, else in `OK`. -/
theorem responseOf_status (nan : Word64) {i : Instr} {P : Prop} {_ : Decidable P} (h : OutOfRange i ↔ P) :
    (responseOf nan i).status = if P then .rangeError else .ok := by
  cases i with
  | b2bMsb len data => exact (if_neg h.mpr).symm
  | b2bLsb len data => exact (if_neg h.mpr).symm
  | extMsb len data start bits => exact fieldResponse_status (extractMsb_frameOf_eq_none_iff.trans h)
  | extLsb len data start bits => exact fieldResponse_status (extractLsb_frameOf_eq_none_iff.trans h)
  | xbsMsb len data start bits => exact fieldResponse_status (extractString_stringOf_eq_none_iff.trans h)
  | xform data scale offset => exact (if_neg h.mpr).symm
  | decMsb len data start bits scale offset => exact decodedResponse_status (extractMsb_frameOf_eq_none_iff.trans h)
  | decLsb len data start bits scale offset => exact decodedResponse_status (extractLsb_frameOf_eq_none_iff.trans h)

/-! ## The causes of `RangeError` in the command (60_exceptions.md R120) -/

/-- The causes of R120 by rows of R61's table, in the decoder's own fields as numbers. -/
def RowOutOfRange (op ord len s L : Nat) : Prop :=
  (op = 2 ∨ op = 5) ∧ ord = 0 ∧ ¬ MsbLegal (8 * len) s L ∨
  (op = 2 ∨ op = 5) ∧ ord = 1 ∧ ¬ LsbLegal (8 * len) s L ∨
  op = 3 ∧ ¬ MsbLegal len s L

/-- The listed causes put together: in each row they are the complement of the legal spans. -/
theorem rangeErrorCause_iff {c : Command} : RangeErrorCause c ↔
    RowOutOfRange (opOf c.cw).toNat (ordOf c.cw).toNat (lenOf c.cw).toNat (startBitOf c.cw).toNat
      (bitLengthOf c.cw).toNat := by
  have op_iff (k : BitVec 4) : c.cw.extractLsb' 0 4 = k ↔ (opOf c.cw).toNat = k.toNat := BitVec.toNat_inj.symm
  have ord_iff (k : BitVec 1) : c.cw.extractLsb' 4 1 = k ↔ (ordOf c.cw).toNat = k.toNat := BitVec.toNat_inj.symm
  have ord_lt : (ordOf c.cw).toNat < 2 := (ordOf c.cw).isLt
  simp only [RangeErrorCause, RowOutOfRange, MsbLegal, LsbLegal, op_iff, ord_iff]
  simp only [lenOf, startBitOf, bitLengthOf, BitVec.reduceToNat]
  omega

/-- For a command that decodes, the causes of R120 are those of the operation it names. -/
theorem rangeErrorCause_iff_outOfRange {c : Command} {i : Instr} (h : decode c = .ok i) :
    RangeErrorCause c ↔ OutOfRange i := by
  have row := (decode_eq_ok.mp h).2
  rw [rangeErrorCause_iff, RowOutOfRange]
  simp only [decodeOperation] at row
  split at row
  case h_1 hop hord | h_2 hop hord | h_3 hop hord | h_4 hop hord | h_5 hop hord | h_9 hop hord | h_10 hop hord =>
    obtain ⟨-, rfl⟩ := need_eq_ok.mp row
    simp [hop, hord, OutOfRange]
  case h_7 hop hord =>
    cases row
    simp [hop, OutOfRange]
  all_goals cases row

/-! ## Errors -/

/-- A response with no data leaves the draw counter as it was: the command is answered, and nothing else changes. -/
theorem answered_no_data_eq {s : State} {c : Command} {rest : List Command} (h : s.pending = c :: rest)
    (e : Status) : s.answered { status := e } =
      { s with pending := rest, responses := s.responses ++ [{ status := e }] } :=
  respond_eq_of_pending h _

/-- A step answers the command that waits, and an error among its answers carries nothing but its status. -/
theorem exists_step_eq_answered {s : State} {c : Command} {rest : List Command} (h : s.pending = c :: rest) :
    ∃ r : Response, step s = .next (s.answered r) ∧ (r.status ≠ .ok → r = { status := r.status }) := by
  cases hd : decode c with
  | error e => exact ⟨_, step_of_decode_error h hd, fun _ => rfl⟩
  | ok i => exact ⟨_, step_of_decode_ok h hd, (responseOf_followsColumn _ i).2⟩

end Sys2Proof.Machine
end

section
/-! The statements of 60_exceptions.md. -/
namespace Sys2Proof.Proofs
open Sys2Proof.Machine

/-- Settles O7: decoding decides first, then the span of the operation decoded. -/
theorem statusFollowsErrorPriority : Obligations.StatusFollowsErrorPriority := by
  intro s c rest hp
  cases hd : decode c with
  | error e =>
    refine ⟨_, _, step_of_decode_error hp hd, answered_responses _ s, ?_⟩
    rw [if_pos ((decode_isError_iff c).mp ⟨e, hd⟩)]
  | ok i =>
    refine ⟨_, _, step_of_decode_ok hp hd, answered_responses _ s, ?_⟩
    rw [if_neg ((decode_isOk_iff c).mp ⟨i, hd⟩)]
    exact responseOf_status _ (rangeErrorCause_iff_outOfRange hd).symm

/-- Settles O8: no data means no draw either, so the response is all that an error adds. -/
theorem errorChangesNothingButItsResponse : Obligations.ErrorChangesNothingButItsResponse := by
  intro s c rest hp
  obtain ⟨r, hstep, hbare⟩ := exists_step_eq_answered hp
  refine ⟨_, r, hstep, answered_responses r s, fun herror => ⟨hbare herror, ?_⟩⟩
  rw [← answered_no_data_eq hp, ← hbare herror]

/-- Settles O9, status by status. -/
theorem statusCodes : Obligations.StatusCodes := by
  refine ⟨rfl, rfl, rfl, fun st => ?_⟩
  cases st with
  | ok => decide
  | rangeError => decide
  | illegalCommand => decide

end Sys2Proof.Proofs
end

section
/-!
SUPPORT. A run over the commands that wait (70_reset_and_hazards.md R145): each step answers the oldest one as it would
be answered alone, so as many steps as commands wait answer them all, in order.
-/
namespace Sys2Proof.Machine

/-- A run goes on from wherever its first step leads. -/
theorem run_succ_of_step {M : Host.Core} {s t : M.State} (h : M.step s = .next t) (k : Nat) :
    M.run (k + 1) s = M.run k t := by
  rw [Host.Core.run, h]

/-- `r` is the response that `c` gets when it waits alone, whatever the draw counter, but for the sign and payload of a
NaN (10_state.md R27). -/
def AnsweredAlone (c : Command) (r : Response) : Prop :=
  ∀ n : Nat, ∃ (r' : Response) (u : State), step { pending := [c], responses := [], nanDraws := n } = .next u ∧
    u.responses = [r'] ∧ r.SameButNan r'

/-- The decoder sees the command alone, and the operation's response depends on the state in a NaN's word only. -/
theorem exists_step_answeredAlone {s : State} {c : Command} {rest : List Command} (h : s.pending = c :: rest) :
    ∃ r : Response, step s = .next (s.answered r) ∧ AnsweredAlone c r := by
  cases hd : decode c with
  | error e =>
    exact ⟨_, step_of_decode_error h hd, fun n => ⟨_, _, step_of_decode_error rfl hd, rfl, .inl rfl⟩⟩
  | ok i =>
    exact ⟨_, step_of_decode_ok h hd, fun n => ⟨_, _, step_of_decode_ok rfl hd, rfl,
      responseOf_sameButNan (isNanWord_nanWord i s) (isNanWord_nanWord i _) i⟩⟩

/-- The run that answers every waiting command, by induction on the list of commands: the first step answers the head
and leaves the tail to the rest of the run. -/
theorem exists_run_answers {cs : List Command} {s : State} (h : s.pending = cs) :
    ∃ (t : State) (rs : List Response), Host.Core.run Sys2Proof.core cs.length s = .next t ∧ t.pending = [] ∧
      t.responses = s.responses ++ rs ∧ List.Forall₂ AnsweredAlone cs rs := by
  induction cs generalizing s with
  | nil => exact ⟨s, [], rfl, h, (List.append_nil _).symm, .nil⟩
  | cons c cs ih =>
    obtain ⟨r, hstep, hr⟩ := exists_step_answeredAlone h
    have htail : (s.answered r).pending = cs := by rw [answered_pending, h, List.tail_cons]
    obtain ⟨t, rs, hrun, hpending, hresponses, hrs⟩ := ih htail
    refine ⟨t, r :: rs, ?_, hpending, ?_, .cons hr hrs⟩
    · exact (run_succ_of_step hstep cs.length).trans hrun
    · rw [hresponses, answered_responses, List.append_assoc, List.singleton_append]

end Sys2Proof.Machine
end

section
/-! The statements of 70_reset_and_hazards.md. -/
namespace Sys2Proof.Proofs
open Sys2Proof.Machine

/-- Settles O14: the responses of the run stand one by one against the commands that waited. -/
theorem runAnswersCommandsInOrder : Obligations.RunAnswersCommandsInOrder := by
  intro s
  obtain ⟨t, rs, hrun, hpending, hresponses, hrs⟩ := exists_run_answers (s := s) rfl
  refine ⟨t, rs, hrun, hpending, hresponses, hrs.length_eq.symm, fun k c n hk => ?_⟩
  obtain ⟨hlt, rfl⟩ := List.getElem?_eq_some_iff.mp hk
  have hlt' : k < rs.length := hrs.length_eq ▸ hlt
  obtain ⟨r', u, hstep, hu, hsame⟩ := hrs.get hlt hlt' n
  exact ⟨rs[k], r', u, List.getElem?_eq_getElem hlt', hstep, hu, hsame⟩

/-- Settles O5: a step answers the oldest command, whatever the decoder makes of it. -/
theorem everyCommandGetsOneResponse : Obligations.EveryCommandGetsOneResponse := by
  intro s c rest hp
  obtain ⟨r, hstep, -⟩ := exists_step_eq_answered hp
  exact ⟨s.answered r, r, hstep, by rw [answered_pending, hp, List.tail_cons], answered_responses r s⟩

end Sys2Proof.Proofs
end

section
/-! The statements of 10_state.md about a unit for which no command waits. -/
namespace Sys2Proof.Proofs
open Sys2Proof.Machine

/-- Settles O1, by the two fields of the reset state. -/
theorem resetHoldsNoCommandAndNoResponse : Obligations.ResetHoldsNoCommandAndNoResponse :=
  ⟨reset_pending, reset_responses⟩

/-- Settles O4: the step's case of an empty list of commands. -/
theorem idleUnitStaysAsItIs : Obligations.IdleUnitStaysAsItIs := by
  intro s hp
  exact step_of_pending_nil hp

end Sys2Proof.Proofs
end
